-- ==== Sys2Proof/Word.lean ====
section
/-! DEFINITION. The words of the hardware: a command word and every port value is a 32-bit vector, bit 31 the most
significant (00_scope.md R7); a character code is an 8-bit vector (10_state.md R27). -/

namespace Sys2Proof

/-- A command word or a port value (R7). -/
abbrev Word := BitVec 32

/-- A character code of the text result, or one cell of the reference datapath's byte store (R27, R161). -/
abbrev Byte := BitVec 8

end Sys2Proof
end

