-- ==== Sys2Proof/Config.lean ====
section
/-! DEFINITION. What an instance of BFX fixes (00_scope.md R5), the free value the spec leaves open (10_state.md R30,
93_implementation_defined.md U1), and the host-side parameters of 44_client_layouts.md (D29). -/

namespace Sys2Proof

/-- The parameters of one instance (R5). `nmax` is `NMAX`, the capacity of the bit buffer in bits, OPEN: every
statement about the machine holds for every value of it. -/
structure Config where
  nmax : Nat
  deriving DecidableEq, Repr

/-- R5: `1 <= NMAX <= 65535`. -/
abbrev Config.Wf (c : Config) : Prop := 1 ≤ c.nmax ∧ c.nmax ≤ 65535

/-- R5: the suggested default capacity, 1024 bits (log entry 3). -/
def Config.suggested : Config := ⟨1024⟩

/-- R5: `TMAX = min(682, NMAX div 6)`, the number of cells of the text result file. -/
def Config.tmax (c : Config) : Nat := min 682 (c.nmax / 6)

/-- R5: `XLEN`, the width of `RES`. -/
def Config.xlen : Nat := 32

/-- R5: `WMAX`, the largest integer extraction width. -/
def Config.wmax : Nat := 32

/-- R5: `CW`, the command word width. -/
def Config.cw : Nat := 32

/-- R5: `APPMAX`, the largest bit count of one `APP`. -/
def Config.appMax : Nat := 16

/-- FREE VALUE (log entry 5). What a read of a port that holds no value returns (R30, U1: "a fresh draw at every
read"): the n-th such read returns `anyValue n`. No body: nothing can be proved of any value of it. -/
opaque Config.anyValue : Nat → Word

/-- The OPEN numbers of a host that runs the client layouts (00_scope.md R5, D29). No rule of the block reads them. -/
structure ClientParams where
  /-- `MINLEN_A`: minimum length in bits for a valid type A buffer (R183). -/
  minLenA : Nat
  /-- `MINLEN_B`: minimum length in bits for a valid type B buffer (R183). -/
  minLenB : Nat
  /-- `ETA_24_60_ABSENT`: whether ETA hour 24 and minute 60 count as absent (R187). -/
  eta2460Absent : Bool
  /-- `DISC_B`: the discriminant of type B, not 5 (R191, D29). -/
  discB : Nat
  deriving DecidableEq, Repr

/-- 92_eei_decisions.md, open parameters: `MINLEN_A`, `MINLEN_B` in 0..65535, `DISC_B` in 0..63 and not 5. -/
abbrev ClientParams.Wf (p : ClientParams) : Prop :=
  p.minLenA ≤ 65535 ∧ p.minLenB ≤ 65535 ∧ p.discB ≤ 63 ∧ p.discB ≠ 5

end Sys2Proof
end

