-- ==== Sys2Proof/Syntax.lean ====
section
/-! DEFINITION. The commands of BFX-1 (30_encoding.md R75): one constructor per row of the opcode table. Operands are
the unsigned immediates of the command word (R76), in the order of the assembler syntax (R83). -/

namespace Sys2Proof

/-- A command. `app`: `cnt` is `cw[27:16]`, `data` is `cw[15:0]` (R73). `getu`, `gets`, `gett`: `offset` is `cw[15:0]`,
`width` is `cw[27:16]`, both in bits (R74). -/
inductive Instr where
  /-- `CLR`, R100: start a new construction. -/
  | clr
  /-- `APP cnt, data`, R101: append `cnt` bits. -/
  | app (cnt : BitVec 12) (data : BitVec 16)
  /-- `SEAL`, R102: end the construction and fix the length (the plain name is a keyword of Lean). -/
  | sealBuf
  /-- `LEN`, R120: return the length in bits. -/
  | len
  /-- `GETU offset, width`, R121: extract an unsigned integer. -/
  | getu (offset : BitVec 16) (width : BitVec 12)
  /-- `GETS offset, width`, R122: extract a two's-complement signed integer. -/
  | gets (offset : BitVec 16) (width : BitVec 12)
  /-- `GETT offset, width`, R140: extract a packed-character string. -/
  | gett (offset : BitVec 16) (width : BitVec 12)
  deriving DecidableEq, Repr

end Sys2Proof
end

