-- ==== Sys2Proof/WellFormed.lean ====
section
/-! DEFINITION. Which terms of Instr are commands of the machine: the only condition the encoding puts on an operand
beyond its field's width is `1 <= cnt <= 16` of `APP` (30_encoding.md R73, R75, R80). Canonical spelling: R80, R83. -/

namespace Sys2Proof

/-- R73: the legal counts of an `APP`, 1 to 16. -/
def cntLegal (cnt : BitVec 12) : Bool := decide (1 ≤ cnt.toNat) && decide (cnt.toNat ≤ Config.appMax)

/-- A command some word stands for. -/
def Instr.wf : Instr → Bool
  | .clr => true
  | .app cnt _ => cntLegal cnt
  | .sealBuf => true
  | .len => true
  | .getu _ _ => true
  | .gets _ _ => true
  | .gett _ _ => true

/-- The bits `data[cnt-1:0]` of an `APP`, the others zero: `data mod 2^cnt` (R83). -/
def keepData (cnt : BitVec 12) (data : BitVec 16) : BitVec 16 := BitVec.ofNat 16 (data.toNat % 2 ^ cnt.toNat)

/-- R80, R83: the canonical spelling of a command has the ignored bits of an `APP` zero. -/
def Instr.canon : Instr → Instr
  | .clr => .clr
  | .app cnt data => .app cnt (keepData cnt data)
  | .sealBuf => .sealBuf
  | .len => .len
  | .getu offset width => .getu offset width
  | .gets offset width => .gets offset width
  | .gett offset width => .gett offset width

/-- A command in canonical spelling: the operands are in the range the assembler gives them (R83). -/
def Instr.canonical (i : Instr) : Bool := decide (i.canon = i)

end Sys2Proof
end

