-- ==== Sys2Proof/Decode.lean ====
section
/-! DEFINITION. Decoding a command word, total on all 2^32 words and rejecting by name (30_encoding.md R71 to R80), and
the encoder written from the same tables (R71 to R76, R83, R86). Decoding reads no state (R77). -/

namespace Sys2Proof

/-- Why a word is illegal (R77, R224). -/
inductive Illegal where
  /-- R78: opcode 0x0 or 0x8 to 0xF. -/
  | reservedOpcode (op : BitVec 4)
  /-- R79: a format Z word with a nonzero bit in [27:0]. -/
  | reservedBits (op : BitVec 4)
  /-- R80: `APP` with `cnt` 0 or above 16. -/
  | badCount (cnt : BitVec 12)
  deriving DecidableEq, Repr

/-- What a word decodes to. -/
inductive Decoded where
  | command (i : Instr)
  | illegal (why : Illegal)
  deriving DecidableEq, Repr

/-- R71: `op = cw[31:28]`. -/
def opField (cw : Word) : BitVec 4 := cw.extractLsb' 28 4

/-- R71: `a = cw[27:16]`. -/
def aField (cw : Word) : BitVec 12 := cw.extractLsb' 16 12

/-- R71: `b = cw[15:0]`. -/
def bField (cw : Word) : BitVec 16 := cw.extractLsb' 0 16

/-- R75: the opcodes that stand for no command. -/
def opReserved (op : BitVec 4) : Bool := decide (op.toNat = 0) || decide (8 ≤ op.toNat)

/-- R72: the opcodes of format Z. -/
def opFormatZ (op : BitVec 4) : Bool := decide (op.toNat = 1) || decide (op.toNat = 3) || decide (op.toNat = 4)

/-- R75, R76: the command of an opcode that is not reserved, its operands taken straight from the fields. -/
def commandOf (op : BitVec 4) (a : BitVec 12) (b : BitVec 16) : Instr :=
  match op.toNat with
  | 1 => .clr
  | 2 => .app a b
  | 3 => .sealBuf
  | 4 => .len
  | 5 => .getu b a
  | 6 => .gets b a
  | _ => .gett b a

/-- R77, in its order. -/
def decode (cw : Word) : Decoded :=
  if opReserved (opField cw) then .illegal (.reservedOpcode (opField cw))
  else if opFormatZ (opField cw) && (decide (aField cw ≠ 0) || decide (bField cw ≠ 0)) then
    .illegal (.reservedBits (opField cw))
  else if decide ((opField cw).toNat = 2) && !cntLegal (aField cw) then .illegal (.badCount (aField cw))
  else .command (commandOf (opField cw) (aField cw) (bField cw))

/-- R71: the word of three fields. -/
def packWord (op : BitVec 4) (a : BitVec 12) (b : BitVec 16) : Word := op ++ a ++ b

/-- R75: the opcode of a command. -/
def Instr.opcode : Instr → BitVec 4
  | .clr => 0x1
  | .app _ _ => 0x2
  | .sealBuf => 0x3
  | .len => 0x4
  | .getu _ _ => 0x5
  | .gets _ _ => 0x6
  | .gett _ _ => 0x7

/-- R72 to R76, R83: the word of a command; an `APP` is spelled canonically. -/
def encode (i : Instr) : Word :=
  match i with
  | .clr => packWord i.opcode 0 0
  | .app cnt data => packWord i.opcode cnt (keepData cnt data)
  | .sealBuf => packWord i.opcode 0 0
  | .len => packWord i.opcode 0 0
  | .getu offset width => packWord i.opcode width offset
  | .gets offset width => packWord i.opcode width offset
  | .gett offset width => packWord i.opcode width offset

/-- One row of the opcode map (R75): a word is the row's command when `cw &&& mask = mtch` and, for `APP`, its count
is legal. -/
structure OpcodeRow where
  mnemonic : String
  mtch : Word
  mask : Word
  deriving DecidableEq, Repr

/-- R75. -/
def opcodeMap : List OpcodeRow :=
  [⟨"CLR", 0x10000000, 0xFFFFFFFF⟩,
   ⟨"APP", 0x20000000, 0xF0000000⟩,
   ⟨"SEAL", 0x30000000, 0xFFFFFFFF⟩,
   ⟨"LEN", 0x40000000, 0xFFFFFFFF⟩,
   ⟨"GETU", 0x50000000, 0xF0000000⟩,
   ⟨"GETS", 0x60000000, 0xF0000000⟩,
   ⟨"GETT", 0x70000000, 0xF0000000⟩]

/-- The row of the opcode map that a command belongs to (R75). -/
def Instr.row : Instr → OpcodeRow
  | .clr => ⟨"CLR", 0x10000000, 0xFFFFFFFF⟩
  | .app _ _ => ⟨"APP", 0x20000000, 0xF0000000⟩
  | .sealBuf => ⟨"SEAL", 0x30000000, 0xFFFFFFFF⟩
  | .len => ⟨"LEN", 0x40000000, 0xFFFFFFFF⟩
  | .getu _ _ => ⟨"GETU", 0x50000000, 0xF0000000⟩
  | .gets _ _ => ⟨"GETS", 0x60000000, 0xF0000000⟩
  | .gett _ _ => ⟨"GETT", 0x70000000, 0xF0000000⟩

/-- The command a word stands for, if it stands for one. -/
def Decoded.toOption : Decoded → Option Instr
  | .command i => some i
  | .illegal _ => none

/-- The command word whose low `nbits` bits are those of `w`, the others zero (a command is one 32-bit word, R70). -/
def tableWord (nbits w : Nat) : Word := BitVec.ofNat 32 (w % 2 ^ nbits)

/-- The host's question: what the decoder reads from an instruction given as a number of `nbits` bits. A command is
exactly one 32-bit word (R70), so nothing longer is one. -/
def decodeTableWord (nbits w : Nat) : Option Instr :=
  if nbits ≤ 32 then (decode (tableWord nbits w)).toOption else none

end Sys2Proof
end

