-- ==== Sys2Proof/Machine/State.lean ====
section
/-! DEFINITION. The state of the machine as plain data (10_state.md R20 to R38), the host's side of the interface
(R28 to R33, 70_reset_and_hazards.md R262, R263), the named stops, and the state after reset (R38, R250). -/

namespace Sys2Proof.Machine

/-- R21: the phase. -/
inductive Phase where
  /-- under construction (0) -/
  | loading
  /-- constructed, read-only (1) -/
  | sealed
  deriving DecidableEq, Repr

/-- R25, 60_exceptions.md R221: the status code of a command. The values 6 to 15 never occur, so they are no names. -/
inductive Code where
  | ok
  | eRange
  | eIllegal
  | eState
  | eWidth
  | eCapacity
  deriving DecidableEq, Repr

/-- R27: the result of the last command. -/
inductive Result where
  | none
  | int (v : Word)
  | text (s : List Byte)
  deriving DecidableEq, Repr

/-- R29 to R32: the ports the host reads. `txt i` is a port only for `i < TMAX` (R32, R33). -/
inductive Port where
  | status
  | res
  | tlen
  | txt (i : Nat)
  deriving DecidableEq, Repr

/-- What the host can do to the block (00_scope.md R9, 70_reset_and_hazards.md R262). -/
inductive HostAction where
  /-- R250: the reset event. -/
  | reset
  /-- R28: a write of a command word to `CMD`. -/
  | write (cw : Word)
  /-- R29 to R32: a read of a result port. -/
  | read (p : Port)
  /-- Reading `CMD`: not a move of the host (R33, U2). -/
  | readCmd
  /-- Writing a read-only port: not a move of the host (R33, U2). -/
  | writePort (p : Port) (v : Word)
  /-- Any other address, or an access narrower or wider than 32 bits: not a move of the host (R33, U2). -/
  | otherAccess
  deriving DecidableEq, Repr

/-- The bit buffer `b[0], b[1], ..., b[N-1]`, bit 0 first (R6, R23). Position is address, so the list is its own
canonical form (log entry 4). -/
abbrev Memory := List Bool

/-- The form every buffer has: no more bits than the capacity (R22, R40). -/
def Memory.wf (cap : Nat) (m : Memory) : Bool := decide (m.length ≤ cap)

/-- Faults: none. The five error codes are results of a step, no command is ever stuck, and an access outside the ports
is no move, so no step ends in a model fault (60_exceptions.md R220, R239; log entry 6). -/
inductive Fault where
  deriving DecidableEq, Repr

/-- Refusals: the model gives no meaning. -/
inductive Refusal where
  /-- Raised by an arm of exec whose instruction has no meaning yet. No arm is left so. Safe. -/
  | notModelled (mnemonic : String)
  /-- Raised by a host action that is not a move of the interface: reading `CMD`, writing a read-only port, reading
  `TXT[i]` with `i >= TMAX`, any other access (R33, R239, U2: "refuse"). Safe: nothing can be proved of what hardware
  does there. -/
  | notAHostMove
  deriving DecidableEq, Repr

/-- The state. `ph`, `buf`, `code`, `result` are the block's (R21 to R27); `cfg` is the instance's configuration (R5,
log entry 3); `todo`, `got`, `draws` are the model's own (log entries 1, 2, 5). -/
structure State where
  /-- the parameters of this instance; no step changes them (R5, R41) -/
  cfg : Config
  /-- `PH` (R21) -/
  ph : Phase
  /-- `b[0..N-1]` (R23); `N` is its length (R22) -/
  buf : Memory
  /-- `CODE` (R25) -/
  code : Code
  /-- `R` (R27) -/
  result : Result
  /-- the host's coming actions, the next one first (R24, R263) -/
  todo : List HostAction
  /-- what the host's port reads returned, the newest first (R262) -/
  got : List (Port × Word)
  /-- how many reads of ports without a value there were: the argument of the free value (U1) -/
  draws : Nat
  deriving DecidableEq, Repr

/-- `N`, the length in bits (R22): `N = len(s)` (R264). -/
def State.n (s : State) : Nat := s.buf.length

/-- R38: an instance of configuration `c` right after reset, its host with nothing to do. -/
def State.resetOf (c : Config) : State :=
  { cfg := c, ph := .loading, buf := [], code := .ok, result := .none, todo := [], got := [], draws := 0 }

/-- R38 with the suggested default capacity of R5 (log entry 3). -/
def State.reset : State := State.resetOf Config.suggested

end Sys2Proof.Machine
end

