-- ==== Sys2Proof/Machine/Ops.lean ====
section
/-! DEFINITION. The operations over the bit buffer (00_scope.md R8, 20_memory.md R50 to R61), the two ways a command
ends (60_exceptions.md R220, R222), reset (70_reset_and_hazards.md R250) and the checks in their order (R225, R226). -/

namespace Sys2Proof.Machine

/-- `b[i]` (R6); the buffer has no bit at `i >= N` and no rule asks for one (R23). -/
def bitAt (m : Memory) (i : Nat) : Bool := m.getD i false

/-- R8: the bit string `b[o], ..., b[o+w-1]`, used only when `o + w <= N`. -/
def bits (m : Memory) (o w : Nat) : List Bool := (m.drop o).take w

/-- R8: the unsigned value of a bit string, the first bit the most significant. -/
def valueOf : List Bool → Nat
  | [] => 0
  | b :: bs => (if b then 2 ^ bs.length else 0) + valueOf bs

/-- R8: `MemRead(o, w)`. -/
def memRead (m : Memory) (o w : Nat) : Nat := valueOf (bits m o w)

/-- The `n` low bits of `v`, most significant first: bit `n-1-k` of `v` at place `k` (R8). -/
def bitsOf : Nat → Nat → List Bool
  | 0, _ => []
  | n + 1, v => v.testBit n :: bitsOf n v

/-- R8: `MemWrite(N, n, v)`: append at the current end (R61). -/
def memWrite (m : Memory) (n v : Nat) : Memory := m ++ bitsOf n v

/-- R8: end the command normally, `CODE <- 0`, `R <- r`. -/
def State.done (s : State) (r : Result) : State := { s with code := .ok, result := r }

/-- R222: end the command as a fault with code `e`: `CODE <- e`, `R <- NONE`, and nothing else. This is all there is
of taking an exception (R231); there is no return from one (R232). -/
def State.raise (s : State) (e : Code) : State := { s with code := e, result := .none }

/-- R250: the reset event puts every piece of the block's state at its value of R38. -/
def State.resetBlock (s : State) : State := { s with ph := .loading, buf := [], code := .ok, result := .none }

/-- R226 for `APP` (R101): the fault it ends in, if any. -/
def appFault (nmax : Nat) (ph : Phase) (n cnt : Nat) : Option Code :=
  if ph ≠ .loading then some .eState
  else if nmax < n + cnt then some .eCapacity
  else none

/-- R226 for `GETU` and `GETS` (R121, R122, R126). -/
def intFault (ph : Phase) (n offset width : Nat) : Option Code :=
  if ph ≠ .sealed then some .eState
  else if width = 0 ∨ n < offset + width then some .eRange
  else if Config.wmax < width then some .eWidth
  else none

/-- R226 for `GETT` (R140, R223). -/
def textFault (ph : Phase) (n offset width : Nat) : Option Code :=
  if ph ≠ .sealed then some .eState
  else if width = 0 ∨ n < offset + width then some .eRange
  else if width % 6 ≠ 0 then some .eRange
  else none

/-- R220: a command ends in its first fault or else in its effect `t`. -/
def State.orFault (s : State) (f : Option Code) (t : State) : State :=
  match f with
  | some e => s.raise e
  | none => t

end Sys2Proof.Machine
end

