-- ==== Sys2Proof/Machine/Operands.lean ====
section
/-! DEFINITION. The forms a value takes on its way to a result: zero and sign extension to 32 bits (00_scope.md R8), the
character code of a 6-bit group and the trailing trim (42_text.md R140 to R144). -/

namespace Sys2Proof.Machine

/-- R8: `zext_32(v)`. -/
def zext32 (v : Nat) : Word := BitVec.ofNat 32 v

/-- R8: `sval_w(v)`, the two's-complement value of a `w`-bit `v`, `w >= 1`. -/
def sval (w v : Nat) : Int := if 2 ^ (w - 1) ≤ v then (v : Int) - 2 ^ w else (v : Int)

/-- R8: `sext_32(v, w)`, the 32-bit vector whose signed value is `sval_w(v)`. -/
def sext32 (v w : Nat) : Word := BitVec.ofInt 32 (sval w v)

/-- R141: `asc(c)`, the character code of the 6-bit value `c`. -/
def asc (c : Nat) : Byte := if c < 32 then BitVec.ofNat 8 (c + 64) else BitVec.ofNat 8 c

/-- R142: the characters the trim removes, `@` (0x40) and space (0x20). -/
def isPad (c : Byte) : Bool := decide (c = 0x40) || decide (c = 0x20)

/-- R140: the loop of the trim, "while t > 0 and (ch[t-1] = 0x40 or ch[t-1] = 0x20): t <- t - 1". -/
def trimLen (ch : List Byte) : Nat → Nat
  | 0 => 0
  | t + 1 => if isPad (ch.getD t 0) then trimLen ch t else t + 1

/-- R142: the string without its longest suffix of `@` and space. -/
def trim (ch : List Byte) : List Byte := ch.take (trimLen ch ch.length)

/-- R140: the groups `c[j] = MemRead(offset + 6*j, 6)`, `j` in `0..n-1`. -/
def groups (m : Memory) (offset n : Nat) : List Nat := (List.range n).map fun j => memRead m (offset + 6 * j) 6

/-- R140: the untrimmed string of `n` groups. -/
def rawText (m : Memory) (offset n : Nat) : List Byte := (groups m offset n).map asc

end Sys2Proof.Machine
end

