-- ==== Sys2Proof/Machine/Construct.lean ====
section
/-! DEFINITION. The buffer construction commands `CLR`, `APP`, `SEAL` (40_buffer_construction.md R100 to R102). -/

namespace Sys2Proof.Machine

/-- R100: `CLR`, legal in both phases. -/
def execClr (s : State) : Host.Outcome State Fault Refusal :=
  .next ({ s with ph := .loading, buf := [] }.done .none)

/-- R101: `APP cnt, data`: all of the `cnt` bits or none of them. -/
def execApp (cnt : BitVec 12) (data : BitVec 16) (s : State) : Host.Outcome State Fault Refusal :=
  .next (s.orFault (appFault s.cfg.nmax s.ph s.n cnt.toNat)
    ({ s with buf := memWrite s.buf cnt.toNat (data.toNat % 2 ^ cnt.toNat) }.done .none))

/-- R102: `SEAL`. -/
def execSeal (s : State) : Host.Outcome State Fault Refusal :=
  .next (s.orFault (if s.ph ≠ .loading then some .eState else none) ({ s with ph := .sealed }.done .none))

end Sys2Proof.Machine
end

