-- ==== Sys2Proof/Machine/Integer.lean ====
section
/-! DEFINITION. The length query and the integer extractions `LEN`, `GETU`, `GETS` (41_length_and_integer.md R120 to
R122, R127). -/

namespace Sys2Proof.Machine

/-- R121, R122: an integer extraction; `ext v w` takes the field's unsigned value into the 32 bits of `RES`. -/
def extractInt (ext : Nat → Nat → Word) (offset width : Nat) (s : State) : State :=
  s.orFault (intFault s.ph s.n offset width) (s.done (.int (ext (memRead s.buf offset width) width)))

/-- R120: `LEN`. -/
def execLen (s : State) : Host.Outcome State Fault Refusal :=
  .next (s.orFault (if s.ph ≠ .sealed then some .eState else none) (s.done (.int (zext32 s.n))))

/-- R121: `GETU offset, width`. -/
def execGetu (offset : BitVec 16) (width : BitVec 12) (s : State) : Host.Outcome State Fault Refusal :=
  .next (extractInt (fun u _ => zext32 u) offset.toNat width.toNat s)

/-- R122: `GETS offset, width`. -/
def execGets (offset : BitVec 16) (width : BitVec 12) (s : State) : Host.Outcome State Fault Refusal :=
  .next (extractInt sext32 offset.toNat width.toNat s)

end Sys2Proof.Machine
end

