-- ==== Sys2Proof/Machine/Text.lean ====
section
/-! DEFINITION. The packed-character extraction `GETT` (42_text.md R140 to R144). -/

namespace Sys2Proof.Machine

/-- R140: `GETT offset, width`. -/
def execGett (offset : BitVec 16) (width : BitVec 12) (s : State) : Host.Outcome State Fault Refusal :=
  .next (s.orFault (textFault s.ph s.n offset.toNat width.toNat)
    (s.done (.text (trim (rawText s.buf offset.toNat (width.toNat / 6))))))

end Sys2Proof.Machine
end

