-- ==== Sys2Proof/Machine/Dispatch.lean ====
section
/-! DEFINITION. The dispatch: one arm per command of 30_encoding.md R75. -/

namespace Sys2Proof.Machine

def exec (i : Instr) (s : State) : Host.Outcome State Fault Refusal :=
  match i with
  | .clr => Sys2Proof.Machine.execClr s
  | .app cnt data => Sys2Proof.Machine.execApp cnt data s
  | .sealBuf => Sys2Proof.Machine.execSeal s
  | .len => Sys2Proof.Machine.execLen s
  | .getu offset width => Sys2Proof.Machine.execGetu offset width s
  | .gets offset width => Sys2Proof.Machine.execGets offset width s
  | .gett offset width => Sys2Proof.Machine.execGett offset width s

end Sys2Proof.Machine
end

