-- ==== Sys2Proof/Machine/Flags.lean ====
section
/-! DEFINITION. The flags of BFX are the three fields of `STATUS` (10_state.md R25, R26, R29, R36). -/

namespace Sys2Proof.Machine

/-- R221: the number of a status code. -/
def codeBits : Code → BitVec 4
  | .ok => 0
  | .eRange => 1
  | .eIllegal => 2
  | .eState => 3
  | .eWidth => 4
  | .eCapacity => 5

/-- R26: `KIND`, a function of `R`. -/
def kindBits : Result → BitVec 2
  | .none => 0
  | .int _ => 1
  | .text _ => 2

/-- R21: `PH` as a bit. -/
def phaseBit : Phase → BitVec 1
  | .loading => 0
  | .sealed => 1

/-- R29: `STATUS`, `[3:0] CODE`, `[5:4] KIND`, `[6] PH`, `[31:7]` read as 0. -/
def statusWord (s : State) : Word := (0 : BitVec 25) ++ phaseBit s.ph ++ kindBits s.result ++ codeBits s.code

end Sys2Proof.Machine
end

