-- ==== Sys2Proof/Machine/Events.lean ====
section
/-! DEFINITION. The events of the transaction level (00_scope.md R9): a command word written to `CMD` (10_state.md R28),
a read of a port (R29 to R34), the reset event (70_reset_and_hazards.md R250); and the host's other accesses, which are
no moves (R33). -/

namespace Sys2Proof.Machine

/-- R28: a write of `cw` to `CMD` executes it as one atomic step; an illegal word is executed as `raise E_ILLEGAL`
(30_encoding.md R78, 60_exceptions.md R224). -/
def deliver (cw : Word) (s : State) : Host.Outcome State Fault Refusal :=
  match decode cw with
  | .command i => exec i s
  | .illegal _ => .next (s.raise .eIllegal)

/-- What a port holds (R29 to R32); none: it holds no value. -/
def portValue (p : Port) (s : State) : Option Word :=
  match p with
  | .status => some (statusWord s)
  | .res =>
    match s.result with
    | .int v => some v
    | .none => none
    | .text _ => none
  | .tlen =>
    match s.result with
    | .text t => some (BitVec.ofNat 32 t.length)
    | .none => none
    | .int _ => none
  | .txt i =>
    match s.result with
    | .text t => t[i]?.map fun c => c.setWidth 32
    | .none => none
    | .int _ => none

/-- R32: the ports of an instance; `TXT[i]` is one only for `i < TMAX`. -/
def portExists (c : Config) (p : Port) : Bool :=
  match p with
  | .status => true
  | .res => true
  | .tlen => true
  | .txt i => decide (i < c.tmax)

/-- R30 to R34: a read gives the host the port's value, or any value where the port holds none (a fresh draw, U1); it
changes nothing of the block; a `TXT` index that is no port is no move (R33, U2). -/
def readPort (p : Port) (s : State) : Host.Outcome State Fault Refusal :=
  if portExists s.cfg p then
    match portValue p s with
    | some v => .next { s with got := (p, v) :: s.got }
    | none => .next { s with got := (p, Config.anyValue s.draws) :: s.got, draws := s.draws + 1 }
  else .refused .notAHostMove

/-- R262: one action of the host, complete before the next (R9). -/
def perform (a : HostAction) (s : State) : Host.Outcome State Fault Refusal :=
  match a with
  | .reset => .next s.resetBlock
  | .write cw => deliver cw s
  | .read p => readPort p s
  | .readCmd => .refused .notAHostMove
  | .writePort _ _ => .refused .notAHostMove
  | .otherAccess => .refused .notAHostMove

/-- The next event: the host's next action; with none left the block is idle (60_exceptions.md R237,
70_reset_and_hazards.md R263, log entry 1). -/
def nextEvent (s : State) : Host.Outcome State Fault Refusal :=
  match s.todo with
  | [] => .next s
  | a :: rest => perform a { s with todo := rest }

/-- The state with the host's next action set to a write of `cw` to `CMD` (R24: commands are delivered by the host). -/
def State.withCommand (s : State) (cw : Word) : State := { s with todo := .write cw :: s.todo }

end Sys2Proof.Machine
end

