-- ==== Sys2Proof/Machine/Step.lean ====
section
/-! DEFINITION. One step of the machine: the next event of the transaction level (00_scope.md R9). BFX fetches nothing
(10_state.md R24); what step runs next is the host's next action, so that is where withFetchWord puts a command word. -/

namespace Sys2Proof.Machine

/-- One event. -/
def step (s : State) : Host.Outcome State Fault Refusal := nextEvent s

/-- The state whose next event is the host's write of the command word of `nbits` bits `w` (log entry 1). -/
def State.withFetchWord (s : State) (nbits w : Nat) : State := s.withCommand (tableWord nbits w)

end Sys2Proof.Machine
end

