-- ==== Sys2Proof/Machine/Assembler.lean ====
section
/-! DEFINITION. Assembler syntax and pseudo-instructions (30_encoding.md R83, R84; notation of the spec's own, D26). -/

namespace Sys2Proof.Machine

/-- A line of assembly, its operands as written (R83, R84). The extract commands take offset first, width second. -/
inductive AsmLine where
  | clr
  | app (cnt data : Nat)
  | sealBuf
  | len
  | getu (offset width : Nat)
  | gets (offset width : Nat)
  | gett (offset width : Nat)
  /-- `GETB offset`: a one-bit flag -/
  | getb (offset : Nat)
  /-- `GETC offset`: one character -/
  | getc (offset : Nat)
  /-- `GETF lo, hi`: a field given as `[lo,hi)` -/
  | getf (lo hi : Nat)
  /-- `GETFS lo, hi`: the same, signed -/
  | getfs (lo hi : Nat)
  /-- `GETFT lo, hi`: the same, text -/
  | getft (lo hi : Nat)
  | app6 (v : Nat)
  | app8 (v : Nat)
  | app16 (v : Nat)
  deriving DecidableEq, Repr

/-- A field given as `[lo,hi)` as offset and width; `hi < lo` is no field. -/
def fieldWidth (lo hi : Nat) : Option Nat := if lo ≤ hi then some (hi - lo) else none

/-- R84: the expansion of a pseudo-instruction; a line of R83 stays as it is. -/
def AsmLine.expand : AsmLine → Option AsmLine
  | .getb offset => some (.getu offset 1)
  | .getc offset => some (.gett offset 6)
  | .getf lo hi => (fieldWidth lo hi).map (.getu lo)
  | .getfs lo hi => (fieldWidth lo hi).map (.gets lo)
  | .getft lo hi => (fieldWidth lo hi).map (.gett lo)
  | .app6 v => some (.app 6 v)
  | .app8 v => some (.app 8 v)
  | .app16 v => some (.app 16 v)
  | .clr => some .clr
  | .app cnt data => some (.app cnt data)
  | .sealBuf => some .sealBuf
  | .len => some .len
  | .getu offset width => some (.getu offset width)
  | .gets offset width => some (.gets offset width)
  | .gett offset width => some (.gett offset width)

/-- R83: `0 <= offset <= 65535` and `0 <= width <= 4095`; every value that fits is accepted. -/
def extractFits (offset width : Nat) : Bool := decide (offset ≤ 65535) && decide (width ≤ 4095)

/-- R83: the word of a line without pseudo-instructions; an operand that does not fit its field is rejected. -/
def AsmLine.coreWord : AsmLine → Option Nat
  | .clr => some 0x10000000
  | .app cnt data =>
    if 1 ≤ cnt ∧ cnt ≤ 16 ∧ data ≤ 65535 then some (0x20000000 + cnt * 0x10000 + data % 2 ^ cnt) else none
  | .sealBuf => some 0x30000000
  | .len => some 0x40000000
  | .getu offset width => if extractFits offset width then some (0x50000000 + width * 0x10000 + offset) else none
  | .gets offset width => if extractFits offset width then some (0x60000000 + width * 0x10000 + offset) else none
  | .gett offset width => if extractFits offset width then some (0x70000000 + width * 0x10000 + offset) else none
  | .getb _ => none
  | .getc _ => none
  | .getf _ _ => none
  | .getfs _ _ => none
  | .getft _ _ => none
  | .app6 _ => none
  | .app8 _ => none
  | .app16 _ => none

/-- R83, R84: the word of a line, if it has one. -/
def assemble (l : AsmLine) : Option Word := (l.expand.bind AsmLine.coreWord).map (BitVec.ofNat 32)

/-- A digit of base `base`, lower or upper case above 9. -/
def digitOf (base : Nat) (c : Char) : Option Nat :=
  let v :=
    if '0' ≤ c ∧ c ≤ '9' then some (c.toNat - '0'.toNat)
    else if 'a' ≤ c ∧ c ≤ 'f' then some (c.toNat - 'a'.toNat + 10)
    else if 'A' ≤ c ∧ c ≤ 'F' then some (c.toNat - 'A'.toNat + 10)
    else none
  v.filter (· < base)

/-- The digits of a number, most significant first. -/
def digitsOf (base : Nat) (acc : Nat) : List Char → Option Nat
  | [] => some acc
  | c :: cs => (digitOf base c).bind fun d => digitsOf base (acc * base + d) cs

/-- R83: an operand, decimal or `0x` hexadecimal. -/
def parseNumber : List Char → Option Nat
  | [] => none
  | '0' :: 'x' :: c :: cs => digitsOf 16 0 (c :: cs)
  | c :: cs => digitsOf 10 0 (c :: cs)

/-- White space between the parts of a line. -/
def isBlank (c : Char) : Bool := decide (c = ' ') || decide (c = '\t')

/-- A part of a line without the blanks around it. -/
def stripBlanks (cs : List Char) : List Char := ((cs.dropWhile isBlank).reverse.dropWhile isBlank).reverse

/-- The parts of a text between commas; the head is the part being read. -/
def splitCommas : List Char → List (List Char)
  | [] => [[]]
  | ',' :: cs => [] :: splitCommas cs
  | c :: cs =>
    match splitCommas cs with
    | [] => [[c]]
    | p :: ps => (c :: p) :: ps

/-- R83: the operands of a line, separated by a comma. -/
def parseOperands (cs : List Char) : Option (List Nat) :=
  if stripBlanks cs = [] then some []
  else (splitCommas cs).mapM fun p => parseNumber (stripBlanks p)

/-- R83, R84: the line of a mnemonic in upper case and its operands. -/
def lineOf (mnemonic : List Char) (args : List Nat) : Option AsmLine :=
  match mnemonic, args with
  | ['C', 'L', 'R'], [] => some .clr
  | ['A', 'P', 'P'], [cnt, data] => some (.app cnt data)
  | ['S', 'E', 'A', 'L'], [] => some .sealBuf
  | ['L', 'E', 'N'], [] => some .len
  | ['G', 'E', 'T', 'U'], [o, w] => some (.getu o w)
  | ['G', 'E', 'T', 'S'], [o, w] => some (.gets o w)
  | ['G', 'E', 'T', 'T'], [o, w] => some (.gett o w)
  | ['G', 'E', 'T', 'B'], [o] => some (.getb o)
  | ['G', 'E', 'T', 'C'], [o] => some (.getc o)
  | ['G', 'E', 'T', 'F'], [lo, hi] => some (.getf lo hi)
  | ['G', 'E', 'T', 'F', 'S'], [lo, hi] => some (.getfs lo hi)
  | ['G', 'E', 'T', 'F', 'T'], [lo, hi] => some (.getft lo hi)
  | ['A', 'P', 'P', '6'], [v] => some (.app6 v)
  | ['A', 'P', 'P', '8'], [v] => some (.app8 v)
  | ['A', 'P', 'P', '1', '6'], [v] => some (.app16 v)
  | _, _ => none

/-- R83: one command per line; `;` starts a comment. -/
def parseLine (cs : List Char) : Option AsmLine :=
  let body := stripBlanks (cs.takeWhile (· ≠ ';'))
  (parseOperands (body.dropWhile (!isBlank ·))).bind (lineOf (body.takeWhile (!isBlank ·)))

end Sys2Proof.Machine
end

