-- ==== Sys2Proof/Machine/Client.lean ====
section
/-! DEFINITION. The host's command sequences for the two message types (44_client_layouts.md R180 to R206). The host is
outside the block (00_scope.md R4) and nothing here adds to the block's behaviour (R180): every read is a command
executed by exec. The host's numbers that the source leaves out are the arguments `ClientParams` (D29). -/

namespace Sys2Proof.Machine

/-- Which extraction reads a field. -/
inductive FieldOp where
  | unsigned
  | signed
  | text
  deriving DecidableEq, Repr

/-- What the host does with the value of a field (R184). -/
inductive PostStep where
  /-- use the value as it is -/
  | plain
  /-- R187: raw 0 is absent; `also` is the further value that means "not available" when the host says so -/
  | eta (also : Option Nat)
  /-- R188: divide by 10 -/
  | tenths
  /-- R193: true when the raw value is 1 -/
  | flag
  /-- R191: "used only internally to compute the conditional field"; no accessor serves it -/
  | internal
  deriving DecidableEq, Repr

/-- One row of a layout: the field `[lo,hi)`, its command and word, its post-processing (R182, R186, R191). -/
structure LayoutRow where
  label : String
  lo : Nat
  hi : Nat
  op : FieldOp
  word : Word
  post : PostStep
  deriving DecidableEq, Repr

/-- The command that reads a field of `width` bits at `offset`. -/
def fieldInstr (op : FieldOp) (offset width : Nat) : Instr :=
  match op with
  | .unsigned => .getu (BitVec.ofNat 16 offset) (BitVec.ofNat 12 width)
  | .signed => .gets (BitVec.ofNat 16 offset) (BitVec.ofNat 12 width)
  | .text => .gett (BitVec.ofNat 16 offset) (BitVec.ofNat 12 width)

/-- The command of a row. -/
def LayoutRow.instr (r : LayoutRow) : Instr := fieldInstr r.op r.lo (r.hi - r.lo)

/-- R182: the fields every message type of the family shares. -/
def sharedLayout : List LayoutRow :=
  [⟨"message-type discriminant", 0, 6, .unsigned, 0x50060000, .plain⟩,
   ⟨"repeat indicator", 6, 8, .unsigned, 0x50020006, .plain⟩,
   ⟨"source identifier", 8, 38, .unsigned, 0x501E0008, .plain⟩]

/-- R186: type A, ship static/voyage data. The ETA hour is at 283 (R189, conflict C1). -/
def typeALayout : List LayoutRow :=
  [⟨"protocol version", 38, 40, .unsigned, 0x50020026, .plain⟩,
   ⟨"registry number", 40, 70, .unsigned, 0x501E0028, .plain⟩,
   ⟨"call sign", 70, 112, .text, 0x702A0046, .plain⟩,
   ⟨"name", 112, 232, .text, 0x70780070, .plain⟩,
   ⟨"category code", 232, 240, .unsigned, 0x500800E8, .plain⟩,
   ⟨"hull dimension 1", 240, 249, .unsigned, 0x500900F0, .plain⟩,
   ⟨"hull dimension 2", 249, 258, .unsigned, 0x500900F9, .plain⟩,
   ⟨"hull dimension 3", 258, 264, .unsigned, 0x50060102, .plain⟩,
   ⟨"hull dimension 4", 264, 270, .unsigned, 0x50060108, .plain⟩,
   ⟨"position-fix-type code", 270, 274, .unsigned, 0x5004010E, .plain⟩,
   ⟨"ETA month", 274, 278, .unsigned, 0x50040112, .eta none⟩,
   ⟨"ETA day", 278, 283, .unsigned, 0x50050116, .eta none⟩,
   ⟨"ETA hour", 283, 288, .unsigned, 0x5005011B, .eta (some 24)⟩,
   ⟨"ETA minute", 288, 294, .unsigned, 0x50060120, .eta (some 60)⟩,
   ⟨"draught", 294, 302, .unsigned, 0x50080126, .tenths⟩,
   ⟨"destination", 302, 422, .text, 0x7078012E, .plain⟩]

/-- R191, R193: the accuracy flag of type B, which R195 reads a second time. -/
def accuracyFlag : LayoutRow := ⟨"accuracy flag", 163, 164, .unsigned, 0x500100A3, .flag⟩

/-- R191: the UTC-second sub-field of type B, read only by R195. -/
def utcSecond : LayoutRow := ⟨"UTC second", 253, 259, .unsigned, 0x500600FD, .internal⟩

/-- R191: type B, aid-to-navigation report; the two fields with a procedure of their own are `offPosition` (R195) and
`nameExtension` (R200). -/
def typeBLayout : List LayoutRow :=
  [⟨"category code", 38, 43, .unsigned, 0x50050026, .plain⟩,
   ⟨"name", 43, 163, .text, 0x7078002B, .plain⟩,
   accuracyFlag,
   ⟨"raw longitude", 164, 192, .signed, 0x601C00A4, .plain⟩,
   ⟨"raw latitude", 192, 219, .signed, 0x601B00C0, .plain⟩,
   ⟨"hull dimension 1", 219, 228, .unsigned, 0x500900DB, .plain⟩,
   ⟨"hull dimension 2", 228, 237, .unsigned, 0x500900E4, .plain⟩,
   ⟨"hull dimension 3", 237, 243, .unsigned, 0x500600ED, .plain⟩,
   ⟨"hull dimension 4", 243, 249, .unsigned, 0x500600F3, .plain⟩,
   ⟨"position-fix-type code", 249, 253, .unsigned, 0x500400F9, .plain⟩,
   utcSecond]

/-- R195: the off-position indicator. -/
inductive OffPosition where
  | inPosition
  | offPosition
  | notApplicable
  deriving DecidableEq, Repr

/-- What a field accessor of the host returns (R184, R195). -/
inductive ClientValue where
  | number (n : Nat)
  | signed (z : Int)
  | fraction (q : Rat)
  | flag (b : Bool)
  | text (s : List Byte)
  | position (p : OffPosition)
  | absent
  deriving DecidableEq, Repr

/-- Errors of the host: the block's, propagated (R185), or its own. -/
inductive HostError where
  /-- a command's status code, passed on (R185) -/
  | block (c : Code)
  /-- R181 step 3: no layout is registered for the discriminant -/
  | unsupportedType
  /-- the decoder's type has no such accessor (R191, R202, log entry 10); no command was issued -/
  | noAccessor
  deriving DecidableEq, Repr

/-- The host issues one command; no command stops (60_exceptions.md R220), so the other outcomes do not occur. -/
def issue (i : Instr) (s : State) : State :=
  match exec i s with
  | .next t => t
  | .fault _ => s
  | .refused _ => s

/-- R185: after a command the host propagates its error or takes its result. -/
def answer (t : State) : Except HostError Result :=
  if t.code = .ok then .ok t.result else .error (.block t.code)

/-- The number the host reads from `RES` after a successful `GETU` or `LEN` (R184). -/
def resultNat : Result → Nat
  | .int v => v.toNat
  | .none => 0
  | .text _ => 0

/-- R184, R187, R188, R193: the host's post-processing of an unsigned value. -/
def postNumber (p : ClientParams) (step : PostStep) (n : Nat) : ClientValue :=
  match step with
  | .plain => .number n
  | .eta also => if n = 0 ∨ (p.eta2460Absent = true ∧ also = some n) then .absent else .number n
  | .tenths => .fraction ((n : Rat) / 10)
  | .flag => .flag (decide (n = 1))
  | .internal => .number n

/-- R184: from the result of a row's command to the value the accessor returns. -/
def clientValue (p : ClientParams) (r : LayoutRow) (res : Result) : ClientValue :=
  match res with
  | .none => .absent
  | .int v =>
    match r.op with
    | .signed => .signed v.toInt
    | .unsigned => postNumber p r.post v.toNat
    | .text => postNumber p r.post v.toNat
  | .text t => .text t

/-- R185: the command of a row and its value, an error propagated, with the state the command leaves. -/
def fetchField (p : ClientParams) (r : LayoutRow) (s : State) : Except HostError ClientValue × State :=
  let t := issue r.instr s
  ((answer t).map (clientValue p r), t)

/-- R195: the conditional field of type B: bit 163 is read only when the UTC second is below 60. -/
def offPosition (s : State) : Except HostError OffPosition × State :=
  let t := issue utcSecond.instr s
  match answer t with
  | .error e => (.error e, t)
  | .ok utc =>
    if resultNat utc < 60 then
      let u := issue accuracyFlag.instr t
      ((answer u).map fun a => if resultNat a = 0 then .inPosition else .offPosition, u)
    else (.ok .notApplicable, t)

/-- R200: `floor((total - 272) / 6) * 6`, zero when the buffer is not longer than 272 bits; the width field limits it
to 4092 (log entry 10). -/
def extensionWidth (total : Nat) : Nat := min 4092 ((total - 272) / 6 * 6)

/-- R200: the variable-length trailing field of type B; no `GETT` is issued when it is absent. -/
def nameExtension (s : State) : Except HostError (List Byte) × State :=
  let t := issue .len s
  match answer t with
  | .error e => (.error e, t)
  | .ok r =>
    if extensionWidth (resultNat r) = 0 then (.ok [], t)
    else
      let u := issue (.gett 272 (BitVec.ofNat 12 (extensionWidth (resultNat r)))) t
      ((answer u).map fun r' => match r' with
        | .text str => str
        | .none => []
        | .int _ => [], u)

/-- R181 step 1, 70_reset_and_hazards.md R254: the `APP` commands of a payload, 16 bits at a time, the last one shorter;
`fuel` bounds the number of commands (a payload of `k` bits needs at most `k`). -/
def packApps : Nat → List Bool → List Instr
  | 0, _ => []
  | fuel + 1, payload =>
    if payload = [] then []
    else
      .app (BitVec.ofNat 12 (payload.take 16).length) (BitVec.ofNat 16 (valueOf (payload.take 16))) ::
        packApps fuel (payload.drop 16)

/-- R254, R255: what a host issues to construct the buffer of a payload. -/
def constructInstrs (payload : List Bool) : List Instr :=
  .clr :: packApps payload.length payload ++ [.sealBuf]

/-- R254, R185: the host issues commands one after the other and checks `CODE = 0` after each; it stops at the first
error and passes it on. -/
def issueAll : List Instr → State → Except HostError Unit × State
  | [], s => (.ok (), s)
  | i :: rest, s =>
    let t := issue i s
    match answer t with
    | .error e => (.error e, t)
    | .ok _ => issueAll rest t

/-- R181 step 1: the construction of a payload's buffer. -/
def construct (payload : List Bool) (s : State) : Except HostError Unit × State :=
  issueAll (constructInstrs payload) s

/-- The message types of the host (R186, R191). -/
inductive MessageType where
  | typeA
  | typeB
  deriving DecidableEq, Repr

/-- R181 step 3: the type registered for a discriminant; type A is 5 (R186), type B is `DISC_B`. -/
def dispatchType (p : ClientParams) (disc : Nat) : Option MessageType :=
  if disc = 5 then some .typeA else if disc = p.discB then some .typeB else none

/-- R181 step 3, R182, R186, R191: the layout of a type, the shared fields first. -/
def layoutOf : MessageType → List LayoutRow
  | .typeA => sharedLayout ++ typeALayout
  | .typeB => sharedLayout ++ typeBLayout

/-- R183: the host's minimum length for a type. -/
def minLength (p : ClientParams) : MessageType → Nat
  | .typeA => p.minLenA
  | .typeB => p.minLenB

/-- R183: the validity state of a decoder. -/
inductive Validity where
  | uninitialized
  | valid
  | invalid
  deriving DecidableEq, Repr

/-- R181, R183: a decoder instance of the host. -/
structure Decoder where
  ty : MessageType
  validity : Validity
  deriving DecidableEq, Repr

/-- R183: an instance before its transition. -/
def newDecoder (ty : MessageType) : Decoder := ⟨ty, .uninitialized⟩

/-- R183: the one transition of the validity state, at construction, from the value `LEN` returned; a decided decoder
stays as it is (90_conflicts.md C4). A buffer below the type's minimum length is unusable for it (D29). -/
def settleValidity (p : ClientParams) (len : Nat) (d : Decoder) : Decoder :=
  match d.validity with
  | .uninitialized => { d with validity := if len < minLength p d.ty then .invalid else .valid }
  | .valid => d
  | .invalid => d

/-- R181 steps 2 to 4 on a sealed buffer: discriminant, dispatch, validity. Without a registered layout no decoder is
constructed. -/
def startDecode (p : ClientParams) (s : State) : Except HostError Decoder × State :=
  let t := issue (.getu 0 6) s
  match answer t with
  | .error e => (.error e, t)
  | .ok r =>
    match dispatchType p (resultNat r) with
    | none => (.error .unsupportedType, t)
    | some ty =>
      let u := issue .len t
      ((answer u).map fun r' => settleValidity p (resultNat r') (newDecoder ty), u)

/-- R181 steps 1 to 4: from a payload to a decoder. -/
def decodeMessage (p : ClientParams) (payload : List Bool) (s : State) : Except HostError Decoder × State :=
  match construct payload s with
  | (.error e, t) => (.error e, t)
  | (.ok _, t) => startDecode p t

/-- A field accessor of a decoder (R181 step 5): a row of the layout, or one of the two procedures of type B. -/
inductive Accessor where
  | field (r : LayoutRow)
  | offPosition
  | nameExtension
  deriving DecidableEq, Repr

/-- The accessors of a type: the rows of its layout but for those used only internally, and for type B the
off-position indicator and the name extension (R186, R191). -/
def accessorsOf (ty : MessageType) : List Accessor :=
  ((layoutOf ty).filter (·.post ≠ .internal)).map .field ++
    match ty with
    | .typeA => []
    | .typeB => [.offPosition, .nameExtension]

/-- R181 step 5: the command or procedure of an accessor and its value. -/
def runAccessor (p : ClientParams) (a : Accessor) (s : State) : Except HostError ClientValue × State :=
  match a with
  | .field r => fetchField p r s
  | .offPosition => ((offPosition s).1.map .position, (offPosition s).2)
  | .nameExtension => ((nameExtension s).1.map .text, (nameExtension s).2)

/-- R181 step 5, R183: a decoder serves its type's accessors, an `INVALID` one as well ("may still return reads of
whatever bits are present"; a read outside the buffer still reports `E_RANGE`). DESIGN CHOICE (log entry 13): on an
`INVALID` decoder the value is the block's raw result post-processed as on a `VALID` one; its meaning is void there
(93_implementation_defined.md U14), so no claim about what the field means may rest on it. -/
def serve (p : ClientParams) (d : Decoder) (a : Accessor) (s : State) : Except HostError ClientValue × State :=
  if a ∈ accessorsOf d.ty then runAccessor p a s else (.error .noAccessor, s)

end Sys2Proof.Machine
end

