-- ==== Sys2Proof/Machine/PortMap.lean ====
section
/-! DEFINITION. The recommended bus map of the host ports (20_memory.md R62). `PORTMAP` is open and no rule depends on
it: the step uses port names, and this file turns a bus access of a platform that took the recommended map into the
host action it is. -/

namespace Sys2Proof.Machine

/-- A bus access at `BASE + offset`. -/
inductive BusAccess where
  /-- a read of `size` bytes -/
  | load (offset size : Nat)
  /-- a write of `size` bytes with the value `v` -/
  | store (offset size : Nat) (v : Word)
  deriving DecidableEq, Repr

/-- R62: the offset of a port the host reads. -/
def portOffset : Port → Nat
  | .status => 0x004
  | .res => 0x008
  | .tlen => 0x00C
  | .txt i => 0x1000 + 4 * i

/-- R62: the port at a readable offset of an instance. -/
def portAt (c : Config) (offset : Nat) : Option Port :=
  if offset = 0x004 then some .status
  else if offset = 0x008 then some .res
  else if offset = 0x00C then some .tlen
  else if 0x1000 ≤ offset ∧ offset % 4 = 0 ∧ (offset - 0x1000) / 4 < c.tmax then some (.txt ((offset - 0x1000) / 4))
  else none

/-- R62, R33: the host action a bus access is; only 32-bit accesses at the offsets of the map are moves. -/
def busAction (c : Config) : BusAccess → HostAction
  | .load offset size =>
    if size ≠ 4 then .otherAccess
    else if offset = 0x000 then .readCmd
    else
      match portAt c offset with
      | some p => .read p
      | none => .otherAccess
  | .store offset size v =>
    if size ≠ 4 then .otherAccess
    else if offset = 0x000 then .write v
    else
      match portAt c offset with
      | some p => .writePort p v
      | none => .otherAccess

end Sys2Proof.Machine
end

