-- ==== Sys2Proof/Machine/Datapath.lean ====
section
/-! DEFINITION. The reference shift-and-mask datapath (43_shift_mask_datapath.md R160 to R170): the block over a byte
store instead of the bit sequence. It adds no behaviour (R160) and none of its registers is architectural, so it is a
machine of its own, `DpState`, beside State; R169 relates the two. -/

namespace Sys2Proof.Machine

/-- R161, R169: the registers of the datapath between two commands. -/
structure DpState where
  cfg : Config
  /-- `PH` -/
  ph : Phase
  /-- `N`, held in 16 bits (R22) -/
  n : BitVec 16
  /-- `BY[0..NB-1]` -/
  store : List Byte
  /-- `CODE` -/
  code : Code
  /-- `R` -/
  result : Result
  deriving DecidableEq, Repr

/-- R161: `NB = ceil(NMAX / 8) + 4`. -/
def storeSize (c : Config) : Nat := (c.nmax + 7) / 8 + 4

/-- `BY[k]` (R161). -/
def cell (store : List Byte) (k : Nat) : Byte := store.getD k 0

/-- R161: bit `i` of the buffer is bit `7 - (i mod 8)` of `BY[i div 8]`. -/
def storeBit (store : List Byte) (i : Nat) : Bool := (cell store (i / 8)).getLsbD (7 - i % 8)

/-- The buffer read out of the store (R169). -/
def storeBits (store : List Byte) (n : Nat) : Memory := (List.range n).map (storeBit store)

/-- R161, R40: a store of `NB` cells, of any content, and a length within the capacity. -/
abbrev DpState.Wf (d : DpState) : Prop :=
  d.cfg.Wf ∧ d.n.toNat ≤ d.cfg.nmax ∧ d.store.length = storeSize d.cfg

/-- The architectural state the datapath stands for (R169), its host with nothing to do. -/
def DpState.abstract (d : DpState) : State :=
  { State.resetOf d.cfg with
    ph := d.ph, buf := storeBits d.store d.n.toNat, code := d.code, result := d.result }

/-- R162: the 24-bit window `BY[k] ++ BY[k+1] ++ BY[k+2]`. -/
def window24 (store : List Byte) (k : Nat) : BitVec 24 :=
  cell store k ++ cell store (k + 1) ++ cell store (k + 2)

/-- R162: the window with the `cnt` bits of `d` merged in after its first `r` bits. -/
def mergeWindow (win : BitVec 24) (r cnt d : Nat) : BitVec 24 :=
  let sh := 24 - r - cnt
  let mask : BitVec 24 := BitVec.ofNat 24 (2 ^ cnt - 1) <<< sh
  (win &&& ~~~mask) ||| (BitVec.ofNat 24 d <<< sh)

/-- R162: the window written back to its three cells. -/
def writeWindow (store : List Byte) (k : Nat) (win : BitVec 24) : List Byte :=
  ((store.set k (win.extractLsb' 16 8)).set (k + 1) (win.extractLsb' 8 8)).set (k + 2) (win.extractLsb' 0 8)

/-- R162: the append path, `d = data mod 2^cnt`. -/
def appendPath (store : List Byte) (n cnt d : Nat) : List Byte :=
  writeWindow store (n / 8) (mergeWindow (window24 store (n / 8)) (n % 8) cnt d)

/-- R163: the first byte of a field. -/
def firstCell (o : Nat) : Nat := o / 8

/-- R163: the last byte of a field. -/
def lastCell (o w : Nat) : Nat := (o + w - 1) / 8

/-- R163: the number of bytes of the window. -/
def windowBytes (o w : Nat) : Nat := lastCell o w - firstCell o + 1

/-- R163: `BY[first] ++ ... `, `nb` bytes, the first the most significant. -/
def gather (store : List Byte) (first nb : Nat) : Nat :=
  (List.range nb).foldl (fun acc k => acc * 256 + (cell store (first + k)).toNat) 0

/-- R163: gather, shift right, mask to `w` bits. -/
def shiftMask (store : List Byte) (o w : Nat) : Nat :=
  (gather store (firstCell o) (windowBytes o w) >>> (7 - (o + w - 1) % 8)) &&& (2 ^ w - 1)

/-- R165: the fixed five-byte window. -/
def window40 (store : List Byte) (k : Nat) : BitVec 40 :=
  cell store k ++ cell store (k + 1) ++ cell store (k + 2) ++ cell store (k + 3) ++ cell store (k + 4)

/-- R165: the fixed-window variant of R163. -/
def shiftMask40 (store : List Byte) (o w : Nat) : BitVec 40 :=
  (window40 store (firstCell o) >>> (40 - o % 8 - w)) &&& BitVec.ofNat 40 (2 ^ w - 1)

/-- R166: the top `32 - w` bits filled with copies of bit `w-1`. -/
def signStage (v w : Nat) : Word :=
  BitVec.ofNat 32 v ||| (if v.testBit (w - 1) then BitVec.ofNat 32 (2 ^ 32 - 2 ^ w) else 0)

/-- R166: the equivalent form `((v xor m) - m) mod 2^32` with `m = 2^(w-1)`. -/
def signStageXor (v w : Nat) : Word :=
  (BitVec.ofNat 32 v ^^^ BitVec.ofNat 32 (2 ^ (w - 1))) - BitVec.ofNat 32 (2 ^ (w - 1))

/-- R167: the character code formed by wiring, `code[7] <- 0`, `code[6] <- not c[5]`, `code[5:0] <- c`. -/
def wireChar (c : BitVec 6) : Byte := (0 : BitVec 1) ++ BitVec.ofBool (!c.getLsbD 5) ++ c

/-- R167: the group `j` of a text field at `offset`, as a character code. -/
def groupChar (store : List Byte) (offset j : Nat) : Byte :=
  wireChar (BitVec.ofNat 6 (shiftMask store (offset + 6 * j) 6))

/-- R167: the text loop over the first `n` groups: the cells written so far and the trim counter `t`. -/
def textLoop (store : List Byte) (offset : Nat) : Nat → List Byte × Nat
  | 0 => ([], 0)
  | j + 1 =>
    let before := textLoop store offset j
    let code := groupChar store offset j
    (before.1 ++ [code], if code ≠ 0x40 ∧ code ≠ 0x20 then j + 1 else before.2)

/-- R167: what the text stage leaves in `TXT[0..TLEN-1]`; cells from `t` on hold no architectural value. -/
def textStage (store : List Byte) (offset n : Nat) : List Byte :=
  (textLoop store offset n).1.take (textLoop store offset n).2

/-- R170 stage S1: `b + a > N` with a 17-bit adder. -/
def offEnd (b : BitVec 16) (a : BitVec 12) (n : BitVec 16) : Bool :=
  (n.setWidth 17).ult (b.setWidth 17 + a.setWidth 17)

/-- R170 stage S1: `N + a > NMAX`, on 17 bits. -/
def overCapacity (n : BitVec 16) (a : BitVec 12) (nmax : Nat) : Bool :=
  (BitVec.ofNat 17 nmax).ult (n.setWidth 17 + a.setWidth 17)

/-- R170 stage S1: the status code a command stops with, if it stops (R226). -/
def checkStage (i : Instr) (d : DpState) : Option Code :=
  match i with
  | .clr => none
  | .app cnt _ =>
    if d.ph ≠ .loading then some .eState
    else if overCapacity d.n cnt d.cfg.nmax then some .eCapacity
    else none
  | .sealBuf => if d.ph ≠ .loading then some .eState else none
  | .len => if d.ph ≠ .sealed then some .eState else none
  | .getu offset width =>
    if d.ph ≠ .sealed then some .eState
    else if width = 0 ∨ offEnd offset width d.n then some .eRange
    else if 32 < width.toNat then some .eWidth
    else none
  | .gets offset width =>
    if d.ph ≠ .sealed then some .eState
    else if width = 0 ∨ offEnd offset width d.n then some .eRange
    else if 32 < width.toNat then some .eWidth
    else none
  | .gett offset width =>
    if d.ph ≠ .sealed then some .eState
    else if width = 0 ∨ offEnd offset width d.n ∨ width.toNat % 6 ≠ 0 then some .eRange
    else none

/-- R170 stages S2 to S4: gather, shift and mask, finish, for a command that passed its checks. -/
def finishStages (i : Instr) (d : DpState) : DpState :=
  match i with
  | .clr => { d with ph := .loading, n := 0, code := .ok, result := .none }
  | .app cnt data =>
    { d with
      store := appendPath d.store d.n.toNat cnt.toNat (data.toNat % 2 ^ cnt.toNat)
      n := d.n + cnt.setWidth 16, code := .ok, result := .none }
  | .sealBuf => { d with ph := .sealed, code := .ok, result := .none }
  | .len => { d with code := .ok, result := .int (d.n.setWidth 32) }
  | .getu offset width =>
    { d with code := .ok, result := .int (BitVec.ofNat 32 (shiftMask d.store offset.toNat width.toNat)) }
  | .gets offset width =>
    { d with
      code := .ok
      result := .int (signStage (shiftMask d.store offset.toNat width.toNat) width.toNat) }
  | .gett offset width =>
    { d with code := .ok, result := .text (textStage d.store offset.toNat (width.toNat / 6)) }

/-- R170: one command through the five stages; a faulting one stops after S1 and writes only `CODE` and `KIND`. -/
def dpDeliver (cw : Word) (d : DpState) : DpState :=
  match decode cw with
  | .illegal _ => { d with code := .eIllegal, result := .none }
  | .command i =>
    match checkStage i d with
    | some e => { d with code := e, result := .none }
    | none => finishStages i d

/-- R250, R252: the reset event does not touch the store. -/
def dpReset (d : DpState) : DpState := { d with ph := .loading, n := 0, code := .ok, result := .none }

end Sys2Proof.Machine
end

