-- ==== Sys2Proof/Safety.lean ====
section
/-! DEFINITION. What counts as a safe state and a safe run of BFX, in the terms the statements use: the invariants of
10_state.md R40, the launch premises and the host duty of 70_reset_and_hazards.md R259, R264, the fault log of
60_exceptions.md R239, and the spec's own sums (00_scope.md R8) that the statements measure the machine's operations
against. -/

namespace Sys2Proof.Machine

/-- R32, R40: a character the text result may hold. -/
abbrev isCharCode (c : Byte) : Prop := 0x20 ≤ c.toNat ∧ c.toNat ≤ 0x5F

/-- R40 item 4: the text results that occur. -/
abbrev textOk (cap : Nat) (t : List Byte) : Prop :=
  t.length ≤ cap ∧ (∀ c ∈ t, isCharCode c) ∧ ∀ c, t.getLast? = some c → isPad c = false

/-- R40 items 1 to 4 (item 6 holds by the types; item 5 is about runs), with the bounds of R5 on `NMAX`. -/
structure Inv (s : State) : Prop where
  /-- R5 -/
  cfgWf : s.cfg.Wf
  /-- R40 item 1 -/
  memWf : Memory.wf s.cfg.nmax s.buf = true
  /-- R40 item 2 -/
  faultNone : s.code ≠ .ok → s.result = .none
  /-- R40 item 3 -/
  resultSealed : s.result ≠ .none → s.code = .ok ∧ s.ph = .sealed
  /-- R40 item 4 -/
  textWf : ∀ t, s.result = .text t → textOk s.cfg.tmax t

/-- R264: just reset. -/
abbrev Fresh (s : State) : Prop := s.ph = .loading ∧ s.buf = [] ∧ s.code = .ok ∧ s.result = .none

/-- R264: `Sealed(m)`, for a bit string `m` with `len(m) <= NMAX`; `CODE` and `R` arbitrary. -/
abbrev SealedWith (m : Memory) (s : State) : Prop :=
  m.length ≤ s.cfg.nmax ∧ s.ph = .sealed ∧ s.n = m.length ∧ s.buf = m

/-- R264: `Loading(m)`. -/
abbrev LoadingWith (m : Memory) (s : State) : Prop := s.ph = .loading ∧ s.n = m.length ∧ s.buf = m

/-- R259: the host may use a port only while it holds a value. -/
def portUsable (p : Port) (s : State) : Bool :=
  match p with
  | .status => true
  | .res => decide (s.code = .ok) && decide (kindBits s.result = 1)
  | .tlen => decide (s.code = .ok) && decide (kindBits s.result = 2)
  | .txt i =>
    decide (s.code = .ok) && decide (kindBits s.result = 2) &&
      match portValue .tlen s with
      | some t => decide (i < t.toNat)
      | none => false

/-- R28: the host actions that issue a command, legal word or not. -/
def issuesCommand : HostAction → Bool
  | .write _ => true
  | .reset => false
  | .read _ => false
  | .readCmd => false
  | .writePort _ _ => false
  | .otherAccess => false

/-- R229, R239: "no command of the run ended with `CODE != 0`", for a run of `k` events; what `CODE` held before the run,
and what a port read finds there, does not count. -/
def faultFree : Nat → State → Bool
  | 0, _ => true
  | k + 1, s =>
    match step s with
    | .next t => (!(s.todo.take 1).any issuesCommand || decide (t.code = .ok)) && faultFree k t
    | .fault _ => false
    | .refused _ => false

/-- `k` events one after the other, stopping at the first that gives no next state. -/
def runFor : Nat → State → Host.Outcome State Fault Refusal
  | 0, s => .next s
  | k + 1, s =>
    match step s with
    | .next t => runFor k t
    | .fault f => .fault f
    | .refused r => .refused r

/-- The host actions that may change the phase or the buffer of a sealed block (R104). -/
def reopens : HostAction → Bool
  | .reset => true
  | .write cw => decide (decode cw = .command .clr)
  | .read _ => false
  | .readCmd => false
  | .writePort _ _ => false
  | .otherAccess => false

/-- R8, as printed: `sum over k in 0..w-1 of b[o+k] * 2^(w-1-k)`. -/
def fieldSum (m : Memory) (o w : Nat) : Nat :=
  ∑ k ∈ Finset.range w, (if bitAt m (o + k) then 2 ^ (w - 1 - k) else 0)

/-- R129, as printed: `v_0 = 0`, `v_(k+1) = 2 * v_k + b[offset + k]`. -/
def serialValue (m : Memory) (o : Nat) : Nat → Nat
  | 0 => 0
  | k + 1 => 2 * serialValue m o k + (bitAt m (o + k)).toNat

/-- R129: the same recurrence over the integers, started at `v_1 = -b[offset]`. -/
def serialSigned (m : Memory) (o : Nat) : Nat → Int
  | 0 => 0
  | 1 => -((bitAt m o).toNat : Int)
  | k + 2 => 2 * serialSigned m o (k + 1) + ((bitAt m (o + (k + 1))).toNat : Int)

/-- R101, R103: the bit string `data[cnt-1:0]`, most significant bit first. -/
def dataBits (cnt : BitVec 12) (data : BitVec 16) : List Bool :=
  (List.range cnt.toNat).map fun k => data.getLsbD (cnt.toNat - 1 - k)

/-- R103: the concatenation of the bit strings of a list of `APP` operands. -/
def payloadOf (pieces : List (BitVec 12 × BitVec 16)) : List Bool :=
  pieces.flatMap fun p => dataBits p.1 p.2

/-- R103: the host writes the `APP`s of the pieces and then `SEAL`. -/
def constructActions (pieces : List (BitVec 12 × BitVec 16)) : List HostAction :=
  (pieces.map fun p => HostAction.write (packWord 2 p.1 p.2)) ++ [.write (encode .sealBuf)]

/-- R146: `pack(s)`, the groups `s[i] mod 64`, 6 bits each, most significant bit first. -/
def packText (s : List Byte) : List Bool := s.flatMap fun c => bitsOf 6 (c.toNat % 64)

/-- The bit string `m` stands at `offset` of the buffer (R146). -/
abbrev StandsAt (m buf : Memory) (offset : Nat) : Prop :=
  offset + m.length ≤ buf.length ∧ bits buf offset m.length = m

/-- R142: the `@` or space character by its code. -/
abbrev isPadCode (c : Byte) : Prop := c = 0x40 ∨ c = 0x20

/-- The block's part of a state is the same in two states (R34, R222). -/
abbrev SameBlock (s t : State) : Prop :=
  t.cfg = s.cfg ∧ t.ph = s.ph ∧ t.buf = s.buf ∧ t.code = s.code ∧ t.result = s.result

/-- R60: the two states differ at most in `CODE` and `R`. -/
abbrev OnlyAnswer (s t : State) : Prop := t = { s with code := t.code, result := t.result }

end Sys2Proof.Machine
end

