-- ==== Sys2Proof/Certificates/Slice0/Obligations.lean ====
section
/-! DEFINITION. The statements for the provers, from the spec's numbered rules. A conclusion of the form
`exec i s = .next { s with ... }` says the instruction's result, its whole frame (every field not named keeps its
value: the buffer bit by bit, the phase, the configuration, the host's side) and that the instruction completes. -/

open Sys2Proof Sys2Proof.Machine

/-! ## Encoding -/

/-- R77, R224: decoding of all 2^32 words, by the arithmetic of the three fields. -/
def Obligations.WordsDecodeByTheirFields : Prop :=
  ∀ cw : Word,
    let op := cw.toNat / 2 ^ 28
    let a := cw.toNat / 2 ^ 16 % 2 ^ 12
    let b := cw.toNat % 2 ^ 16
    ((∃ why, decode cw = .illegal why) ↔
      op = 0 ∨ 8 ≤ op ∨ ((op = 1 ∨ op = 3 ∨ op = 4) ∧ (a ≠ 0 ∨ b ≠ 0)) ∨ (op = 2 ∧ (a = 0 ∨ 16 < a))) ∧
    ∀ i, decode cw = .command i →
      i = (if op = 1 then .clr
        else if op = 2 then .app (BitVec.ofNat 12 a) (BitVec.ofNat 16 b)
        else if op = 3 then .sealBuf
        else if op = 4 then .len
        else if op = 5 then .getu (BitVec.ofNat 16 b) (BitVec.ofNat 12 a)
        else if op = 6 then .gets (BitVec.ofNat 16 b) (BitVec.ofNat 12 a)
        else .gett (BitVec.ofNat 16 b) (BitVec.ofNat 12 a))

/-- R75: `match` and `mask` select the command, with the extra condition on `cnt` for `APP`; the two directions. -/
def Obligations.OpcodeMapSelectsTheCommand : Prop :=
  (∀ cw i, decode cw = .command i → i.row ∈ opcodeMap ∧ cw &&& i.row.mask = i.row.mtch) ∧
  (∀ cw row, row ∈ opcodeMap → cw &&& row.mask = row.mtch →
    (row.mnemonic = "APP" → 1 ≤ (aField cw).toNat ∧ (aField cw).toNat ≤ 16) →
    ∃ i, decode cw = .command i ∧ i.row = row)

/-- R86: encode and decode agree, in both directions, for every command and every operand of its fields. -/
def Obligations.DecodeEncodeAgree : Prop :=
  (∀ i : Instr, i.wf = true → i.canonical = true → decode (encode i) = .command i) ∧
  (∀ cw i, decode cw = .command i →
    i.wf = true ∧ (i.canonical = true → encode i = cw) ∧
    i.canon.canonical = true ∧ encode i = encode i.canon ∧ decode (encode i) = .command i.canon ∧
    ∀ s, exec i.canon s = exec i s) ∧
  (∀ cw why, decode cw = .illegal why → ∀ i : Instr, i.wf = true → encode i ≠ cw)

/-- Words written out from the spec's encodings (R72 to R75, R78 to R80). -/
def Obligations.HandWrittenWordsDecode : Prop :=
  decode 0b00010000000000000000000000000000#32 = .command .clr ∧
  decode 0b00100000000100000001010110001100#32 = .command (.app 16 0x158C) ∧
  decode 0b00110000000000000000000000000000#32 = .command .sealBuf ∧
  decode 0b01000000000000000000000000000000#32 = .command .len ∧
  decode 0b01010000000010100000000000000110#32 = .command (.getu 6 10) ∧
  decode 0b01100000000010110000000000000101#32 = .command (.gets 5 11) ∧
  decode 0b01110000001001000000000000000011#32 = .command (.gett 3 36) ∧
  decode 0x00000000#32 = .illegal (.reservedOpcode 0) ∧
  decode 0xFFFFFFFF#32 = .illegal (.reservedOpcode 15) ∧
  decode 0x10000001#32 = .illegal (.reservedBits 1) ∧
  decode 0x2011FFFF#32 = .illegal (.badCount 17)

/-- R83: the assembler's word of a line decodes to the command the line names, for every operand that fits. -/
def Obligations.AssemblerSpellsTheCommand : Prop :=
  (∀ offset width : Nat, offset ≤ 65535 → width ≤ 4095 →
    (∃ w, assemble (.getu offset width) = some w ∧
      decode w = .command (.getu (BitVec.ofNat 16 offset) (BitVec.ofNat 12 width))) ∧
    (∃ w, assemble (.gets offset width) = some w ∧
      decode w = .command (.gets (BitVec.ofNat 16 offset) (BitVec.ofNat 12 width))) ∧
    (∃ w, assemble (.gett offset width) = some w ∧
      decode w = .command (.gett (BitVec.ofNat 16 offset) (BitVec.ofNat 12 width)))) ∧
  (∀ cnt data : Nat, 1 ≤ cnt → cnt ≤ 16 → data ≤ 65535 →
    ∃ w, assemble (.app cnt data) = some w ∧
      decode w = .command (.app (BitVec.ofNat 12 cnt) (BitVec.ofNat 16 (data % 2 ^ cnt)))) ∧
  (∃ w, assemble .clr = some w ∧ decode w = .command .clr) ∧
  (∃ w, assemble .sealBuf = some w ∧ decode w = .command .sealBuf) ∧
  (∃ w, assemble .len = some w ∧ decode w = .command .len)

/-! ## The step -/

/-- A step runs the decoded command: when the host's next action is a write of a word that decodes to `i`, step is exec
of `i` on the state without that action (00_scope.md R9, 10_state.md R28). -/
def Obligations.StepRunsTheDecodedCommand : Prop :=
  ∀ (s : State) (cw : Word) (rest : List HostAction) (i : Instr),
    s.todo = .write cw :: rest → decode cw = .command i → step s = exec i { s with todo := rest }

/-- R78, R79, R80, R224: an illegal word, in either phase, ends in `E_ILLEGAL` and changes nothing else. -/
def Obligations.IllegalWordsOnlyReport : Prop :=
  ∀ (s : State) (cw : Word) (rest : List HostAction),
    s.todo = .write cw :: rest →
    (cw.toNat / 2 ^ 28 = 0 ∨ 8 ≤ cw.toNat / 2 ^ 28 ∨
      ((cw.toNat / 2 ^ 28 = 1 ∨ cw.toNat / 2 ^ 28 = 3 ∨ cw.toNat / 2 ^ 28 = 4) ∧ cw.toNat % 2 ^ 28 ≠ 0) ∨
      (cw.toNat / 2 ^ 28 = 2 ∧
        (cw.toNat / 2 ^ 16 % 2 ^ 12 = 0 ∨ 16 < cw.toNat / 2 ^ 16 % 2 ^ 12))) →
    step s = .next { s with todo := rest, code := .eIllegal, result := .none }

/-- R250, R251, R38: the reset event, at any time, leaves the table of R38; the block is then as after a successful
`CLR`, `STATUS` reads 0 and no other port holds a value. -/
def Obligations.ResetEventGivesTheResetTable : Prop :=
  ∀ (s : State) (rest : List HostAction), s.todo = .reset :: rest →
    let t : State := { s with ph := .loading, buf := [], code := .ok, result := .none, todo := rest }
    step s = .next t ∧ exec .clr { s with todo := rest } = .next t ∧ Fresh t ∧ t.n = 0 ∧
    kindBits t.result = 0 ∧ portValue .status t = some 0 ∧ portValue .res t = none ∧ portValue .tlen t = none ∧
    ∀ i, portValue (.txt i) t = none

/-- The model's choices: the stops of accesses that are no host move, a read of `TXT[i]` with
`i >= TMAX = min(682, NMAX div 6)` among them (R5, R33, U2, log entry 6), and the idle step (R237, R263, log entry 1). -/
def Obligations.NonMovesStopAndIdleStays : Prop :=
  (∀ (s : State) (i : Nat) (rest : List HostAction), s.todo = .read (.txt i) :: rest →
    min 682 (s.cfg.nmax / 6) ≤ i → step s = .refused .notAHostMove) ∧
  (∀ (s : State) (rest : List HostAction), s.todo = .readCmd :: rest → step s = .refused .notAHostMove) ∧
  (∀ (s : State) (p : Port) (v : Word) (rest : List HostAction), s.todo = .writePort p v :: rest →
    step s = .refused .notAHostMove) ∧
  (∀ (s : State) (rest : List HostAction), s.todo = .otherAccess :: rest → step s = .refused .notAHostMove) ∧
  (∀ s : State, s.todo = [] → step s = .next s)

/-! ## Buffer construction -/

/-- R100: `CLR`, in both phases. -/
def Obligations.ClrStartsAConstruction : Prop :=
  ∀ s : State,
    let t : State := { s with ph := .loading, buf := [], code := .ok, result := .none }
    decode 0x10000000#32 = .command .clr ∧
    (∀ cw : Word, cw.toNat / 2 ^ 28 = 1 → cw.toNat % 2 ^ 28 ≠ 0 → ∃ why, decode cw = .illegal why) ∧
    exec .clr s = .next t ∧ t.n = 0 ∧ statusWord t = 0

/-- R101: `APP cnt, data`: its encoding, its two faults in their order, and the bits it appends, most significant
first. -/
def Obligations.AppAppendsTheBits : Prop :=
  ∀ (s : State) (cnt : BitVec 12) (data : BitVec 16), 1 ≤ cnt.toNat → cnt.toNat ≤ 16 →
    (∀ cw : Word, cw.toNat = 0x20000000 + cnt.toNat * 2 ^ 16 + data.toNat → decode cw = .command (.app cnt data)) ∧
    (∀ cw : Word, cw.toNat / 2 ^ 28 = 2 →
      cw.toNat / 2 ^ 16 % 2 ^ 12 = 0 ∨ 16 < cw.toNat / 2 ^ 16 % 2 ^ 12 → ∃ why, decode cw = .illegal why) ∧
    (s.ph ≠ .loading → exec (.app cnt data) s = .next { s with code := .eState, result := .none }) ∧
    (s.ph = .loading → s.cfg.nmax < s.n + cnt.toNat →
      exec (.app cnt data) s = .next { s with code := .eCapacity, result := .none }) ∧
    (s.ph = .loading → s.n + cnt.toNat ≤ s.cfg.nmax →
      exec (.app cnt data) s =
        .next { s with
          buf := s.buf ++ (List.range cnt.toNat).map (fun k => data.getLsbD (cnt.toNat - 1 - k))
          code := .ok
          result := .none })

/-- R80: the bits `data[15:cnt]` are ignored: two `APP`s of one count whose low `cnt` bits agree do the same. -/
def Obligations.AppIgnoresTheUpperDataBits : Prop :=
  ∀ (s : State) (cnt : BitVec 12) (d1 d2 : BitVec 16),
    (∀ j, j < cnt.toNat → d1.getLsbD j = d2.getLsbD j) → exec (.app cnt d1) s = exec (.app cnt d2) s

/-- R102: `SEAL`. -/
def Obligations.SealEndsTheConstruction : Prop :=
  ∀ s : State,
    decode 0x30000000#32 = .command .sealBuf ∧
    (s.ph = .loading → exec .sealBuf s = .next { s with ph := .sealed, code := .ok, result := .none }) ∧
    (s.ph ≠ .loading → exec .sealBuf s = .next { s with code := .eState, result := .none })

/-- R103: a construction of `APP`s that fit and a `SEAL` gives the concatenation of their bit strings; so any two
cuttings of one bit string construct the same block. -/
def Obligations.ConstructionConcatenates : Prop :=
  (∀ (s : State) (pieces : List (BitVec 12 × BitVec 16)) (rest : List HostAction),
    s.ph = .loading → s.buf = [] →
    (∀ p ∈ pieces, 1 ≤ p.1.toNat ∧ p.1.toNat ≤ 16) →
    (payloadOf pieces).length ≤ s.cfg.nmax →
    s.todo = constructActions pieces ++ rest →
    runFor (pieces.length + 1) s =
      .next { s with ph := .sealed, buf := payloadOf pieces, code := .ok, result := .none, todo := rest }) ∧
  (∀ pieces : List (BitVec 12 × BitVec 16),
    (payloadOf pieces).length = (pieces.map fun p => p.1.toNat).sum)

/-- R104: from a sealed state, over any run without a reset and without a `CLR`, the phase, `N` and every bit stay;
`APP` and `SEAL` fault with `E_STATE`. -/
def Obligations.SealedBufferIsImmutable : Prop :=
  (∀ (k : Nat) (s t : State), s.ph = .sealed → (∀ a ∈ s.todo.take k, reopens a = false) → runFor k s = .next t →
    t.ph = .sealed ∧ t.n = s.n ∧ ∀ i, bitAt t.buf i = bitAt s.buf i) ∧
  (∀ s : State, s.ph = .sealed →
    (∀ cnt data, exec (.app cnt data) s = .next { s with code := .eState, result := .none }) ∧
    exec .sealBuf s = .next { s with code := .eState, result := .none })

/-- R105: the empty buffer is legal. -/
def Obligations.EmptyBufferIsLegal : Prop :=
  ∀ s : State, s.n = 0 →
    (s.ph = .loading → exec .sealBuf s = .next { s with ph := .sealed, code := .ok, result := .none }) ∧
    (s.ph = .sealed →
      exec .len s = .next { s with code := .ok, result := .int 0 } ∧
      ∀ offset width,
        exec (.getu offset width) s = .next { s with code := .eRange, result := .none } ∧
        exec (.gets offset width) s = .next { s with code := .eRange, result := .none } ∧
        exec (.gett offset width) s = .next { s with code := .eRange, result := .none })

/-! ## Length and integers -/

/-- R120: `LEN`. -/
def Obligations.LenReturnsTheLength : Prop :=
  ∀ s : State, Inv s →
    decode 0x40000000#32 = .command .len ∧
    (s.ph ≠ .sealed → exec .len s = .next { s with code := .eState, result := .none }) ∧
    (s.ph = .sealed → ∃ v : Word, v.toNat = s.n ∧ v.extractLsb' 16 16 = 0 ∧
      exec .len s = .next { s with code := .ok, result := .int v })

/-- R121: `GETU offset, width`: its encoding, its faults in their order, and the sum it returns. -/
def Obligations.GetuReturnsTheField : Prop :=
  ∀ (s : State) (offset : BitVec 16) (width : BitVec 12),
    (∀ cw : Word, cw.toNat = 0x50000000 + width.toNat * 2 ^ 16 + offset.toNat →
      decode cw = .command (.getu offset width)) ∧
    (s.ph ≠ .sealed → exec (.getu offset width) s = .next { s with code := .eState, result := .none }) ∧
    (s.ph = .sealed → width.toNat = 0 ∨ s.n < offset.toNat + width.toNat →
      exec (.getu offset width) s = .next { s with code := .eRange, result := .none }) ∧
    (s.ph = .sealed → width.toNat ≠ 0 → offset.toNat + width.toNat ≤ s.n → 32 < width.toNat →
      exec (.getu offset width) s = .next { s with code := .eWidth, result := .none }) ∧
    (s.ph = .sealed → width.toNat ≠ 0 → offset.toNat + width.toNat ≤ s.n → width.toNat ≤ 32 →
      ∃ v : Word, v.toNat = fieldSum s.buf offset.toNat width.toNat ∧
        exec (.getu offset width) s = .next { s with code := .ok, result := .int v })

/-- R122: `GETS offset, width`: the same faults, and the two's-complement value with the sign bit at `offset`. -/
def Obligations.GetsReturnsTheSignedField : Prop :=
  ∀ (s : State) (offset : BitVec 16) (width : BitVec 12),
    (∀ cw : Word, cw.toNat = 0x60000000 + width.toNat * 2 ^ 16 + offset.toNat →
      decode cw = .command (.gets offset width)) ∧
    (s.ph ≠ .sealed → exec (.gets offset width) s = .next { s with code := .eState, result := .none }) ∧
    (s.ph = .sealed → width.toNat = 0 ∨ s.n < offset.toNat + width.toNat →
      exec (.gets offset width) s = .next { s with code := .eRange, result := .none }) ∧
    (s.ph = .sealed → width.toNat ≠ 0 → offset.toNat + width.toNat ≤ s.n → 32 < width.toNat →
      exec (.gets offset width) s = .next { s with code := .eWidth, result := .none }) ∧
    (s.ph = .sealed → width.toNat ≠ 0 → offset.toNat + width.toNat ≤ s.n → width.toNat ≤ 32 →
      ∃ v : Word,
        v.toInt = (if bitAt s.buf offset.toNat then
            (fieldSum s.buf offset.toNat width.toNat : Int) - 2 ^ width.toNat
          else (fieldSum s.buf offset.toNat width.toNat : Int)) ∧
        exec (.gets offset width) s = .next { s with code := .ok, result := .int v })

/-- R123: the value of an in-range `GETU` of width `w` is in `[0, 2^w - 1]`, so `RES[31:w] = 0`. -/
def Obligations.UnsignedResultRange : Prop :=
  ∀ (s : State) (offset : BitVec 16) (width : BitVec 12),
    s.ph = .sealed → 1 ≤ width.toNat → width.toNat ≤ 32 → offset.toNat + width.toNat ≤ s.n →
    ∃ v : Word, exec (.getu offset width) s = .next { s with code := .ok, result := .int v } ∧
      v.toNat ≤ 2 ^ width.toNat - 1 ∧ ∀ j, width.toNat ≤ j → v.getLsbD j = false

/-- R124: the signed value of an in-range `GETS` of width `w` is in `[-2^(w-1), 2^(w-1) - 1]`, and `RES[31:w-1]` are
copies of `b[offset]`. -/
def Obligations.SignedResultRange : Prop :=
  ∀ (s : State) (offset : BitVec 16) (width : BitVec 12),
    s.ph = .sealed → 1 ≤ width.toNat → width.toNat ≤ 32 → offset.toNat + width.toNat ≤ s.n →
    ∃ v : Word, exec (.gets offset width) s = .next { s with code := .ok, result := .int v } ∧
      -(2 : Int) ^ (width.toNat - 1) ≤ v.toInt ∧ v.toInt ≤ 2 ^ (width.toNat - 1) - 1 ∧
      ∀ j, width.toNat - 1 ≤ j → j < 32 → v.getLsbD j = bitAt s.buf offset.toNat

/-- R125: the unsigned value is the signed value modulo `2^w`, the signed value is `u` or `u - 2^w`, and the low `w`
bits of the two results agree. -/
def Obligations.TwosComplementConsistency : Prop :=
  ∀ (s : State) (offset : BitVec 16) (width : BitVec 12),
    s.ph = .sealed → 1 ≤ width.toNat → width.toNat ≤ 32 → offset.toNat + width.toNat ≤ s.n →
    ∃ u v : Word,
      exec (.getu offset width) s = .next { s with code := .ok, result := .int u } ∧
      exec (.gets offset width) s = .next { s with code := .ok, result := .int v } ∧
      (u.toNat : Int) = v.toInt % 2 ^ width.toNat ∧
      v.toInt = (if u.toNat < 2 ^ (width.toNat - 1) then (u.toNat : Int) else (u.toNat : Int) - 2 ^ width.toNat) ∧
      u.setWidth width.toNat = v.setWidth width.toNat

/-- R126: `GETU` and `GETS` fault alike. -/
def Obligations.GetuAndGetsFaultAlike : Prop :=
  ∀ (s : State) (offset : BitVec 16) (width : BitVec 12),
    ∃ t u : State, exec (.getu offset width) s = .next t ∧ exec (.gets offset width) s = .next u ∧
      t.code = u.code ∧ (t.code ≠ .ok → t = u)

/-- R127: `E_WIDTH` is reported exactly for an integer extraction that is in range and wider than 32 bits; an
extraction out of range, however wide, is `E_RANGE`. -/
def Obligations.WidthRefusalExactly : Prop :=
  (∀ (i : Instr) (s t : State), exec i s = .next t →
    (t.code = .eWidth ↔
      ∃ offset width, (i = .getu offset width ∨ i = .gets offset width) ∧ s.ph = .sealed ∧
        33 ≤ width.toNat ∧ offset.toNat + width.toNat ≤ s.n)) ∧
  (∀ (i : Instr) (s t : State) (offset : BitVec 16) (width : BitVec 12), exec i s = .next t →
    i = .getu offset width ∨ i = .gets offset width → s.ph = .sealed → 33 ≤ width.toNat →
    s.n < offset.toNat + width.toNat → t.code = .eRange)

/-- R8, R52: a field's value is the printed sum, the lowest address the most significant bit, and is below `2^w`. -/
def Obligations.FieldValueIsTheSum : Prop :=
  ∀ (m : Memory) (o w : Nat), o + w ≤ m.length → memRead m o w = fieldSum m o w ∧ fieldSum m o w < 2 ^ w

/-- R129: the bit-serial recurrences, unsigned and two's-complement. -/
def Obligations.BitSerialDefinitionAgrees : Prop :=
  ∀ (m : Memory) (o w : Nat), o + w ≤ m.length →
    memRead m o w = serialValue m o w ∧
    (1 ≤ w → sval w (memRead m o w) = serialSigned m o w) ∧
    (1 ≤ w → w ≤ 32 → (sext32 (memRead m o w) w).toInt = serialSigned m o w)

/-- R130: a part of an in-range field is in range and its value is cut out of the field's value. -/
def Obligations.SubFieldLaw : Prop :=
  ∀ (m : Memory) (o w i j : Nat), o + w ≤ m.length → i ≤ j → j < w →
    o + i + (j - i + 1) ≤ m.length ∧
    memRead m (o + i) (j - i + 1) = memRead m o w / 2 ^ (w - 1 - j) % 2 ^ (j - i + 1)

/-- R131: the sign extension law and its xor form. -/
def Obligations.SignExtensionLaw : Prop :=
  ∀ (w u : Nat), 1 ≤ w → w ≤ 32 → u ≤ 2 ^ w - 1 →
    (u < 2 ^ (w - 1) → sext32 u w = zext32 u) ∧
    (2 ^ (w - 1) ≤ u → sext32 u w = zext32 (u + 2 ^ 32 - 2 ^ w)) ∧
    (sext32 u w).toInt = ((u ^^^ 2 ^ (w - 1) : Nat) : Int) - 2 ^ (w - 1)

/-! ## The buffer as memory -/

/-- R54: mixed-width accesses see one bit sequence. -/
def Obligations.ConcatenationLaw : Prop :=
  ∀ (m : Memory) (o w1 w2 : Nat), 1 ≤ w1 → 1 ≤ w2 → o + w1 + w2 ≤ m.length →
    memRead m o (w1 + w2) = memRead m o w1 * 2 ^ w2 + memRead m (o + w1) w2

/-- R53: what an `APP` appended reads back, once sealed, as `data mod 2^cnt`, and every earlier bit is as before. -/
def Obligations.AppendedBitsReadBack : Prop :=
  ∀ (s : State) (cnt : BitVec 12) (data : BitVec 16), s.cfg.Wf → s.ph = .loading →
    1 ≤ cnt.toNat → cnt.toNat ≤ 16 → s.n + cnt.toNat ≤ s.cfg.nmax →
    ∃ t u v : State, exec (.app cnt data) s = .next t ∧ exec .sealBuf t = .next u ∧
      exec (.getu (BitVec.ofNat 16 s.n) cnt) u = .next v ∧
      v.result = .int (BitVec.ofNat 32 (data.toNat % 2 ^ cnt.toNat)) ∧
      ∀ i, i < s.n → bitAt v.buf i = bitAt s.buf i

/-- R56, R57, R223: an extraction ends in `E_RANGE` exactly when the contract fails. -/
def Obligations.RangeContractExactly : Prop :=
  ∀ (s : State) (offset : BitVec 16) (width : BitVec 12), s.ph = .sealed →
    ∃ t u v : State,
      exec (.getu offset width) s = .next t ∧ exec (.gets offset width) s = .next u ∧
      exec (.gett offset width) s = .next v ∧
      (t.code = .eRange ↔ width.toNat = 0 ∨ s.n < offset.toNat + width.toNat) ∧
      (u.code = .eRange ↔ width.toNat = 0 ∨ s.n < offset.toNat + width.toNat) ∧
      (v.code = .eRange ↔ width.toNat = 0 ∨ s.n < offset.toNat + width.toNat ∨ width.toNat % 6 ≠ 0)

/-- R60: an extraction changes nothing but `CODE` and `R`; issued twice it answers the same; and what a command answers
does not depend on the extractions issued before it. -/
def Obligations.ExtractionsReadOnlyAndIdempotent : Prop :=
  ∀ (i j : Instr) (s : State), (∃ o w, i = .getu o w ∨ i = .gets o w ∨ i = .gett o w) →
    ∃ t : State, exec i s = .next t ∧ t = { s with code := t.code, result := t.result } ∧
      exec i t = .next t ∧ exec j t = exec j s

/-- R61: writes are append-only: an event leaves the buffer, empties it, or (in phase `LOADING`) appends 1 to 16 bits. -/
def Obligations.WritesAreAppendOnly : Prop :=
  ∀ s t : State, step s = .next t →
    t.buf = s.buf ∨ t.buf = [] ∨
    (s.ph = .loading ∧ ∃ tail : List Bool, 1 ≤ tail.length ∧ tail.length ≤ 16 ∧ t.buf = s.buf ++ tail)

/-- R21, R22: only reset, `CLR` and `SEAL` write `PH`; only reset, `CLR` and `APP` write `N`; no event writes the
configuration. -/
def Obligations.OnlyNamedCommandsWritePhaseAndLength : Prop :=
  ∀ s t : State, step s = .next t →
    t.cfg = s.cfg ∧
    (t.ph ≠ s.ph → ∃ a rest, s.todo = a :: rest ∧
      (a = .reset ∨ ∃ cw, a = .write cw ∧ (decode cw = .command .clr ∨ decode cw = .command .sealBuf))) ∧
    (t.n ≠ s.n → ∃ a rest, s.todo = a :: rest ∧
      (a = .reset ∨ ∃ cw, a = .write cw ∧
        (decode cw = .command .clr ∨ ∃ cnt data, decode cw = .command (.app cnt data) ∧ t.n = s.n + cnt.toNat)))

/-! ## Text -/

/-- R140: `GETT offset, width`: its encoding, its faults, and the text: the characters of the groups without the
longest trailing run of `@` and space. -/
def Obligations.GettReturnsTheText : Prop :=
  ∀ (s : State) (offset : BitVec 16) (width : BitVec 12),
    (∀ cw : Word, cw.toNat = 0x70000000 + width.toNat * 2 ^ 16 + offset.toNat →
      decode cw = .command (.gett offset width)) ∧
    (s.ph ≠ .sealed → exec (.gett offset width) s = .next { s with code := .eState, result := .none }) ∧
    (s.ph = .sealed → width.toNat = 0 ∨ s.n < offset.toNat + width.toNat ∨ width.toNat % 6 ≠ 0 →
      exec (.gett offset width) s = .next { s with code := .eRange, result := .none }) ∧
    (s.ph = .sealed → width.toNat ≠ 0 → offset.toNat + width.toNat ≤ s.n → width.toNat % 6 = 0 →
      let n := width.toNat / 6
      let ch : Nat → Byte := fun j => asc (fieldSum s.buf (offset.toNat + 6 * j) 6)
      ∃ t, t ≤ n ∧ (t = 0 ∨ ¬ isPadCode (ch (t - 1))) ∧ (∀ j, t ≤ j → j < n → isPadCode (ch j)) ∧
        exec (.gett offset width) s = .next { s with code := .ok, result := .text ((List.range t).map ch) })

/-- R141: the alphabet: the table's two halves, the bits of a code, injectivity and the inverse. -/
def Obligations.AlphabetTable : Prop :=
  (∀ c : Fin 32, (asc c.val).toNat = c.val + 64) ∧
  (∀ c : Fin 32, (asc (c.val + 32)).toNat = c.val + 32) ∧
  (∀ c : Fin 64, (asc c.val).getLsbD 7 = false ∧ (asc c.val).getLsbD 6 = !(c.val.testBit 5) ∧
    (asc c.val).setWidth 6 = BitVec.ofNat 6 c.val) ∧
  (∀ c d : Fin 64, asc c.val = asc d.val → c = d) ∧
  (∀ c : Fin 64, (asc c.val).toNat % 64 = c.val)

/-- R142: the trim removes the longest suffix of `@` and space, and nothing else. -/
def Obligations.TrimRemovesTheLongestPadSuffix : Prop :=
  ∀ ch : List Byte, ∃ suffix : List Byte, ch = trim ch ++ suffix ∧ (∀ c ∈ suffix, isPadCode c) ∧
    ∀ c, (trim ch).getLast? = some c → ¬ isPadCode c

/-- R143: a field in which every group is `@` or space gives the empty string, a success. -/
def Obligations.AllPadFieldIsTheEmptyString : Prop :=
  ∀ (s : State) (offset : BitVec 16) (width : BitVec 12),
    s.ph = .sealed → width.toNat ≠ 0 → offset.toNat + width.toNat ≤ s.n → width.toNat % 6 = 0 →
    (∀ j, j < width.toNat / 6 →
      fieldSum s.buf (offset.toNat + 6 * j) 6 = 0 ∨ fieldSum s.buf (offset.toNat + 6 * j) 6 = 32) →
    exec (.gett offset width) s = .next { s with code := .ok, result := .text [] }

/-- R144: an `@` or space with another character somewhere after it is kept. -/
def Obligations.InteriorPadsAreKept : Prop :=
  ∀ (a b : List Byte) (p c : Byte), isPadCode p → c ∈ b → ¬ isPadCode c →
    ∃ b', trim (a ++ p :: b) = a ++ p :: b' ∧ c ∈ b'

/-- R145: group `j` of a text field is what `GETU offset + 6*j, 6` returns, and the text is `asc` of the groups,
trimmed. -/
def Obligations.GroupsAreWhatGetuReturns : Prop :=
  ∀ (s : State) (offset : BitVec 16) (width : BitVec 12), Inv s →
    s.ph = .sealed → width.toNat ≠ 0 → offset.toNat + width.toNat ≤ s.n → width.toNat % 6 = 0 →
    ∃ gs : List Nat, gs.length = width.toNat / 6 ∧
      (∀ j (h : j < gs.length), gs[j] < 64 ∧
        exec (.getu (BitVec.ofNat 16 (offset.toNat + 6 * j)) 6) s =
          .next { s with code := .ok, result := .int (BitVec.ofNat 32 gs[j]) }) ∧
      exec (.gett offset width) s = .next { s with code := .ok, result := .text (trim (gs.map asc)) }

/-- R146, for a string that is not empty (an empty one would be a `GETT` of width 0, which R57 makes `E_RANGE`: log
entry 9): packed text reads back as the string without its trailing run of `@` and space. -/
def Obligations.TextRoundTrip : Prop :=
  ∀ (s : State) (str : List Byte) (offset : BitVec 16) (width : BitVec 12),
    s.ph = .sealed → str ≠ [] → (∀ c ∈ str, isCharCode c) → width.toNat = 6 * str.length →
    StandsAt (packText str) s.buf offset.toNat →
    exec (.gett offset width) s = .next { s with code := .ok, result := .text (trim str) } ∧
    ((∀ c, str.getLast? = some c → ¬ isPadCode c) → trim str = str)

/-- R147, R149: a text result fits in `TXT` and holds only codes 0x20 to 0x5F. -/
def Obligations.TextResultFitsTheFile : Prop :=
  ∀ (s t : State) (offset : BitVec 16) (width : BitVec 12) (str : List Byte),
    Memory.wf s.cfg.nmax s.buf = true → exec (.gett offset width) s = .next t → t.result = .text str →
    width.toNat / 6 ≤ min 682 (s.cfg.nmax / 6) ∧ str.length ≤ width.toNat / 6 ∧ ∀ c ∈ str, 0x20 ≤ c.toNat ∧ c.toNat ≤ 0x5F

/-! ## Status, ports, invariants -/

/-- R21, R25, R26, R29: the fields of `STATUS`, each by the numbers the spec prints. -/
def Obligations.StatusWordLayout : Prop :=
  ∀ s : State,
    (statusWord s).extractLsb' 0 4 = (match s.code with
      | .ok => 0#4 | .eRange => 1#4 | .eIllegal => 2#4 | .eState => 3#4 | .eWidth => 4#4 | .eCapacity => 5#4) ∧
    (statusWord s).extractLsb' 4 2 = (match s.result with | .none => 0#2 | .int _ => 1#2 | .text _ => 2#2) ∧
    (statusWord s).getLsbD 6 = decide (s.ph = .sealed) ∧
    (statusWord s).extractLsb' 7 25 = 0

/-- R29 to R32: what a read of each port gives the host, `TXT[i]` for `i < TMAX = min(682, NMAX div 6)` (R5); where the
port holds no value the host gets the free value, which is any value. -/
def Obligations.PortReadsGiveTheResult : Prop :=
  ∀ (s : State) (p : Port) (rest : List HostAction), s.todo = .read p :: rest →
    let got := fun v => { s with todo := rest, got := (p, v) :: s.got }
    let any := { s with todo := rest, got := (p, Config.anyValue s.draws) :: s.got, draws := s.draws + 1 }
    (p = .status → step s = .next (got (statusWord s))) ∧
    (∀ v, p = .res → s.result = .int v → step s = .next (got v)) ∧
    (p = .res → (∀ v, s.result ≠ .int v) → step s = .next any) ∧
    (∀ t, p = .tlen → s.result = .text t → step s = .next (got (BitVec.ofNat 32 t.length))) ∧
    (p = .tlen → (∀ t, s.result ≠ .text t) → step s = .next any) ∧
    (∀ i t (h : i < t.length), p = .txt i → i < min 682 (s.cfg.nmax / 6) → s.result = .text t →
      step s = .next (got (t[i].setWidth 32))) ∧
    (∀ i, p = .txt i → i < min 682 (s.cfg.nmax / 6) → (∀ t, s.result = .text t → t.length ≤ i) → step s = .next any)

/-- R34: no port read has a side effect on the block, and two reads in a row of a port that holds a value give the same
value. -/
def Obligations.PortReadsHaveNoSideEffect : Prop :=
  (∀ (s t : State) (p : Port) (rest : List HostAction), s.todo = .read p :: rest → step s = .next t →
    SameBlock s t ∧ t.todo = rest ∧ portValue p t = portValue p s) ∧
  (∀ (s : State) (p : Port) (v : Word) (rest : List HostAction), s.todo = .read p :: .read p :: rest →
    portExists s.cfg p = true → portValue p s = some v →
    runFor 2 s = .next { s with todo := rest, got := (p, v) :: (p, v) :: s.got })

/-- R259: in a state that meets the invariants, the host's look at `STATUS` (and `TLEN`) tells exactly which ports hold
a value. -/
def Obligations.LookBeforeReadIsExact : Prop :=
  ∀ (s : State) (p : Port), Inv s → (portUsable p s = true ↔ (portValue p s).isSome = true)

/-- R38, R40: the invariants hold after reset, for every capacity. -/
def Obligations.InvariantsHoldAfterReset : Prop :=
  (∀ c : Config, c.Wf → Inv (State.resetOf c) ∧ Fresh (State.resetOf c) ∧ statusWord (State.resetOf c) = 0) ∧
  Inv State.reset

/-- R40: every event keeps the invariants, from every state that meets them. -/
def Obligations.EveryEventKeepsTheInvariants : Prop :=
  ∀ s t : State, Inv s → step s = .next t → Inv t

/-! ## Errors -/

/-- R220, R222, R231, R240: every word, in every state, ends in one of two ways, and a fault writes `CODE` and
`R <- NONE` and nothing else. -/
def Obligations.EveryWordEndsInOneOfTwoWays : Prop :=
  ∀ (cw : Word) (s : State), ∃ t : State, deliver cw s = .next t ∧
    (t.code = .ok ∨ t = { s with code := t.code, result := .none }) ∧
    t.cfg = s.cfg ∧ t.todo = s.todo ∧ t.got = s.got ∧ t.draws = s.draws

/-- R225: the phase table. -/
def Obligations.PhaseTable : Prop :=
  ∀ (i : Instr) (s : State), ∃ t : State, exec i s = .next t ∧
    (t.code = .eState ↔
      match i with
      | .clr => False
      | .app _ _ => s.ph = .sealed
      | .sealBuf => s.ph = .sealed
      | .len => s.ph = .loading
      | .getu _ _ => s.ph = .loading
      | .gets _ _ => s.ph = .loading
      | .gett _ _ => s.ph = .loading) ∧
    (t.code = .eState → t = { s with code := .eState, result := .none })

/-- R221: which commands raise which code. -/
def Obligations.CodesByCommand : Prop :=
  ∀ (i : Instr) (s t : State), exec i s = .next t →
    (t.code = .eRange → ∃ o w, i = .getu o w ∨ i = .gets o w ∨ i = .gett o w) ∧
    t.code ≠ .eIllegal ∧
    (t.code = .eWidth → ∃ o w, i = .getu o w ∨ i = .gets o w) ∧
    (t.code = .eCapacity ↔ ∃ cnt data, i = .app cnt data ∧ s.ph = .loading ∧ s.cfg.nmax < s.n + cnt.toNat)

/-- R226: the consequences of the priority order. -/
def Obligations.FaultPriority : Prop :=
  (∀ (s : State) (offset : BitVec 16) (width : BitVec 12), s.ph = .loading →
    exec (.getu offset width) s = .next { s with code := .eState, result := .none } ∧
    exec (.gets offset width) s = .next { s with code := .eState, result := .none } ∧
    exec (.gett offset width) s = .next { s with code := .eState, result := .none }) ∧
  (∀ (s : State) (offset : BitVec 16) (width : BitVec 12), s.ph = .sealed → 32 < width.toNat →
    s.n < offset.toNat + width.toNat →
    exec (.getu offset width) s = .next { s with code := .eRange, result := .none } ∧
    exec (.gets offset width) s = .next { s with code := .eRange, result := .none }) ∧
  (∀ (s : State) (cw : Word), (∃ why, decode cw = .illegal why) →
    deliver cw s = .next { s with code := .eIllegal, result := .none })

/-- R232: after a fault, of a command or of an illegal word, the next word executes exactly as if the faulting one had
never been issued. -/
def Obligations.FaultsLeaveNoTrace : Prop :=
  ∀ (cw dw : Word) (s t : State), deliver cw s = .next t → t.code ≠ .ok → deliver dw t = deliver dw s

/-! ## The reference datapath -/

/-- R162: the append path equals the architectural append, and keeps the store's size. -/
def Obligations.AppendPathIsTheAppend : Prop :=
  ∀ (c : Config) (store : List Byte) (n cnt d : Nat),
    store.length = storeSize c → 1 ≤ cnt → cnt ≤ 16 → n + cnt ≤ c.nmax → d < 2 ^ cnt →
    storeBits (appendPath store n cnt d) (n + cnt) = memWrite (storeBits store n) cnt d ∧
    (appendPath store n cnt d).length = store.length

/-- R163, R164, R165: gather, shift and mask give the field's value, in a window of at most five bytes, two for a group;
the fixed five-byte window gives the same value. -/
def Obligations.ShiftAndMaskIsTheField : Prop :=
  ∀ (store : List Byte) (n o w : Nat), 1 ≤ w → w ≤ 32 → o + w ≤ n →
    shiftMask store o w = memRead (storeBits store n) o w ∧
    windowBytes o w ≤ 5 ∧ (w = 6 → windowBytes o w ≤ 2) ∧
    (windowBytes o w = 1 ↔ o / 8 = (o + w - 1) / 8) ∧
    7 - (o + w - 1) % 8 = 8 * windowBytes o w - o % 8 - w ∧
    (shiftMask40 store o w).toNat = memRead (storeBits store n) o w ∧
    1 ≤ 40 - o % 8 - w ∧ 40 - o % 8 - w ≤ 39 ∧
    ∀ c : Config, n ≤ c.nmax → firstCell o + 4 ≤ storeSize c - 1

/-- R166: both forms of the sign stage are the sign extension. -/
def Obligations.SignStageIsSignExtension : Prop :=
  ∀ (v w : Nat), 1 ≤ w → w ≤ 32 → v < 2 ^ w → signStage v w = sext32 v w ∧ signStageXor v w = sext32 v w

/-- R167: the text stage over the store gives the trimmed text of the buffer. -/
def Obligations.TextStageIsTheTrimmedText : Prop :=
  ∀ (store : List Byte) (n offset k : Nat), offset + 6 * k ≤ n →
    textStage store offset k = trim (rawText (storeBits store n) offset k)

/-- R169: for every state of the datapath with a store of any content, and every command word, the datapath and the
architectural rules reach the same `PH`, `N`, bits, `CODE` and `R`; and the reset events agree too. -/
def Obligations.DatapathRefinesTheBlock : Prop :=
  ∀ (d : DpState) (cw : Word), d.Wf →
    deliver cw d.abstract = .next (dpDeliver cw d).abstract ∧ (dpDeliver cw d).Wf ∧
    d.abstract.resetBlock = (dpReset d).abstract ∧ (dpReset d).Wf

/-- R168: padding, cells never written and cells of a discarded buffer never reach a result: two stores that hold the
same bits below `N` give the same `PH`, `N`, `CODE`, `R` and bits after every command. -/
def Obligations.PaddingIsUnobservable : Prop :=
  ∀ (d e : DpState) (cw : Word), d.Wf → e.Wf → e.cfg = d.cfg → e.ph = d.ph → e.n = d.n → e.code = d.code →
    e.result = d.result → (∀ i, i < d.n.toNat → storeBit e.store i = storeBit d.store i) →
    (dpDeliver cw e).abstract = (dpDeliver cw d).abstract

/-! ## Client layouts -/

/-- R182, R186, R191: each row's printed word is the word of its command, and the layouts tile `[0,38)`, `[38,422)` and
`[38,259)` without gap or overlap. -/
def Obligations.LayoutRowsSpellTheirWords : Prop :=
  (∀ r ∈ sharedLayout ++ typeALayout ++ typeBLayout, encode r.instr = r.word ∧ decode r.word = .command r.instr) ∧
  (sharedLayout.map (·.lo) = 0 :: (sharedLayout.map (·.hi)).dropLast) ∧
  (typeALayout.map (·.lo) = 38 :: (typeALayout.map (·.hi)).dropLast) ∧
  (typeBLayout.map (·.lo) = 38 :: (typeBLayout.map (·.hi)).dropLast) ∧
  (sharedLayout.map (·.hi)).getLast? = some 38 ∧ (typeALayout.map (·.hi)).getLast? = some 422 ∧
  (typeBLayout.map (·.hi)).getLast? = some 259
end

