-- ==== Sys2Proof/Laws/Client.lean ====
section
/-! SUPPORT. What the host's procedures can do (44_client_layouts.md R181 to R191): a row of commands, the validity state,
the accessors; and the launch premise `Sealed`. -/

namespace Sys2Proof.Machine

/-- R185: a row of commands goes on exactly while `CODE` is 0. -/
theorem issueAll_cons (i : Instr) (rest : List Instr) (s : State) :
    ((issue i s).code = .ok ∧ issueAll (i :: rest) s = issueAll rest (issue i s)) ∨
    ((issue i s).code ≠ .ok ∧ issueAll (i :: rest) s = (.error (.block (issue i s).code), issue i s)) := by
  by_cases h : (issue i s).code = .ok
  · exact .inl ⟨h, by simp [issueAll, answer, h]⟩
  · exact .inr ⟨h, by simp [issueAll, answer, h]⟩

/-- R183: the validity state leaves UNINITIALIZED. -/
theorem settleValidity_ne_uninitialized (p : ClientParams) (len : Nat) (d : Decoder) :
    (settleValidity p len d).validity ≠ .uninitialized := by
  obtain ⟨ty, v⟩ := d
  cases v <;> simp only [settleValidity] <;> first | split | skip
  all_goals simp

/-- R183, C4: a decided decoder stays as it is. -/
theorem settleValidity_of_settled (p : ClientParams) (len : Nat) {d : Decoder} (h : d.validity ≠ .uninitialized) :
    settleValidity p len d = d := by
  obtain ⟨ty, v⟩ := d
  cases v
  · exact absurd rfl h
  · rfl
  · rfl

/-- R191: no accessor serves a field used only internally. -/
theorem post_ne_internal_of_accessor {ty : MessageType} {r : LayoutRow} (h : Accessor.field r ∈ accessorsOf ty) :
    r.post ≠ .internal := by
  cases ty <;> simp [accessorsOf] at h <;> exact h.2

/-- R181 step 5: an accessor the type does not have issues no command. -/
theorem serve_of_not_mem (p : ClientParams) {d : Decoder} {a : Accessor} (s : State) (h : a ∉ accessorsOf d.ty) :
    serve p d a s = (.error .noAccessor, s) := if_neg h

/-- R264: the bits of a `Sealed` state fit the capacity. -/
theorem SealedWith.memWf {m : Memory} {s : State} (h : SealedWith m s) : Memory.wf s.cfg.nmax s.buf = true :=
  decide_eq_true (h.2.2.2 ▸ h.1)

end Sys2Proof.Machine
end

