-- ==== Sys2Proof/Laws/Memory.lean ====
section
/-! SUPPORT. Lengths, bounds and the form of the bit buffer: every operation over it keeps `Memory.wf`. -/

namespace Sys2Proof.Machine

@[simp] theorem bitsOf_length (n v : Nat) : (bitsOf n v).length = n := by
  induction n with
  | zero => rfl
  | succ n ih => simp [bitsOf, ih]

@[simp] theorem memWrite_length (m : Memory) (n v : Nat) : (memWrite m n v).length = m.length + n := by
  simp [memWrite]

theorem Memory.wf_iff (cap : Nat) (m : Memory) : Memory.wf cap m = true ↔ m.length ≤ cap := by
  simp [Memory.wf]

theorem Memory.wf_nil (cap : Nat) : Memory.wf cap [] = true := by simp [Memory.wf]

/-- R101, R22: an append that passed the capacity check keeps the form. -/
theorem Memory.wf_memWrite {cap : Nat} {m : Memory} {n : Nat} (v : Nat) (h : m.length + n ≤ cap) :
    Memory.wf cap (memWrite m n v) = true := by
  simpa [Memory.wf] using h

theorem State.reset_mem_wf (c : Config) : Memory.wf (State.resetOf c).cfg.nmax (State.resetOf c).buf = true :=
  Memory.wf_nil _

theorem bits_length {m : Memory} {o w : Nat} (h : o + w ≤ m.length) : (bits m o w).length = w := by
  simp [bits]; omega

/-- A bit string of length `k` has a value below `2^k`. -/
theorem valueOf_lt (l : List Bool) : valueOf l < 2 ^ l.length := by
  induction l with
  | nil => simp [valueOf]
  | cons b bs ih =>
    simp only [valueOf, List.length_cons, pow_succ]
    split <;> omega

theorem valueOf_append (l k : List Bool) : valueOf (l ++ k) = valueOf l * 2 ^ k.length + valueOf k := by
  induction l with
  | nil => simp [valueOf]
  | cons b bs ih =>
    simp only [List.cons_append, valueOf, ih, List.length_append, pow_add]
    split <;> ring

/-- R8: a field of `w` bits has a value below `2^w`. -/
theorem memRead_lt (m : Memory) (o w : Nat) : memRead m o w < 2 ^ w :=
  lt_of_lt_of_le (valueOf_lt _) (Nat.pow_le_pow_right (by decide) (by simp [bits]))

theorem trimLen_le (ch : List Byte) (n : Nat) : trimLen ch n ≤ n := by
  induction n with
  | zero => exact Nat.le_refl _
  | succ n ih =>
    simp only [trimLen]
    split <;> omega

theorem trim_length_le (ch : List Byte) : (trim ch).length ≤ ch.length := by
  simp [trim]

@[simp] theorem groups_length (m : Memory) (o n : Nat) : (groups m o n).length = n := by simp [groups]

@[simp] theorem rawText_length (m : Memory) (o n : Nat) : (rawText m o n).length = n := by simp [rawText]

end Sys2Proof.Machine
end

