-- ==== Sys2Proof/Laws/State.lean ====
section
/-! SUPPORT. What each update of the state leaves in each field: the two ways a command ends (`done`, `raise`) and the
reset event. -/

namespace Sys2Proof.Machine

section
variable (s : State) (r : Result) (e : Code)

@[simp] theorem State.done_cfg : (s.done r).cfg = s.cfg := rfl
@[simp] theorem State.done_ph : (s.done r).ph = s.ph := rfl
@[simp] theorem State.done_buf : (s.done r).buf = s.buf := rfl
@[simp] theorem State.done_n : (s.done r).n = s.n := rfl
@[simp] theorem State.done_code : (s.done r).code = .ok := rfl
@[simp] theorem State.done_result : (s.done r).result = r := rfl
@[simp] theorem State.done_todo : (s.done r).todo = s.todo := rfl
@[simp] theorem State.done_got : (s.done r).got = s.got := rfl
@[simp] theorem State.done_draws : (s.done r).draws = s.draws := rfl

@[simp] theorem State.raise_cfg : (s.raise e).cfg = s.cfg := rfl
@[simp] theorem State.raise_ph : (s.raise e).ph = s.ph := rfl
@[simp] theorem State.raise_buf : (s.raise e).buf = s.buf := rfl
@[simp] theorem State.raise_n : (s.raise e).n = s.n := rfl
@[simp] theorem State.raise_code : (s.raise e).code = e := rfl
@[simp] theorem State.raise_result : (s.raise e).result = .none := rfl
@[simp] theorem State.raise_todo : (s.raise e).todo = s.todo := rfl
@[simp] theorem State.raise_got : (s.raise e).got = s.got := rfl
@[simp] theorem State.raise_draws : (s.raise e).draws = s.draws := rfl

@[simp] theorem State.resetBlock_cfg : s.resetBlock.cfg = s.cfg := rfl
@[simp] theorem State.resetBlock_ph : s.resetBlock.ph = .loading := rfl
@[simp] theorem State.resetBlock_buf : s.resetBlock.buf = [] := rfl
@[simp] theorem State.resetBlock_n : s.resetBlock.n = 0 := rfl
@[simp] theorem State.resetBlock_code : s.resetBlock.code = .ok := rfl
@[simp] theorem State.resetBlock_result : s.resetBlock.result = .none := rfl
@[simp] theorem State.resetBlock_todo : s.resetBlock.todo = s.todo := rfl
@[simp] theorem State.resetBlock_got : s.resetBlock.got = s.got := rfl
@[simp] theorem State.resetBlock_draws : s.resetBlock.draws = s.draws := rfl

@[simp] theorem State.orFault_none (t : State) : s.orFault none t = t := rfl
@[simp] theorem State.orFault_some (t : State) : s.orFault (some e) t = s.raise e := rfl

end

end Sys2Proof.Machine
end

