-- ==== Sys2Proof/Laws/Ops.lean ====
section
/-! SUPPORT. For each shared operation, what it can do. The lemmas about the meanings and the events cite these. -/

namespace Sys2Proof.Machine

/-- A command ends in a fault or in its effect (R220). -/
theorem State.orFault_cases (s : State) (f : Option Code) (t : State) :
    (∃ e, f = some e ∧ s.orFault f t = s.raise e) ∨ (f = none ∧ s.orFault f t = t) := by
  cases f with
  | none => exact .inr ⟨rfl, rfl⟩
  | some e => exact .inl ⟨e, rfl, rfl⟩

/-- When `APP` passes its checks (R101). -/
theorem appFault_none_iff (nmax : Nat) (ph : Phase) (n cnt : Nat) :
    appFault nmax ph n cnt = none ↔ ph = .loading ∧ n + cnt ≤ nmax := by
  unfold appFault
  split
  · simp_all
  · split <;> simp_all

/-- When an integer extraction passes its checks (R121, R122). -/
theorem intFault_none_iff (ph : Phase) (n o w : Nat) :
    intFault ph n o w = none ↔ ph = .sealed ∧ w ≠ 0 ∧ o + w ≤ n ∧ w ≤ Config.wmax := by
  unfold intFault
  split
  · simp_all
  · split
    · rename_i h
      constructor
      · intro h'
        cases h'
      · rintro ⟨-, h1, h2, -⟩
        omega
    · split <;> simp_all

/-- When a text extraction passes its checks (R140). -/
theorem textFault_none_iff (ph : Phase) (n o w : Nat) :
    textFault ph n o w = none ↔ ph = .sealed ∧ w ≠ 0 ∧ o + w ≤ n ∧ w % 6 = 0 := by
  unfold textFault
  split
  · simp_all
  · split
    · constructor
      · intro h'
        cases h'
      · rintro ⟨-, h1, h2, -⟩
        omega
    · split <;> simp_all

/-- What a read of a port does (R30 to R34). -/
theorem readPort_cases (p : Port) (s : State) :
    (portExists s.cfg p = true ∧ ∃ v, portValue p s = some v ∧ readPort p s = .next { s with got := (p, v) :: s.got }) ∨
    (portExists s.cfg p = true ∧ portValue p s = none ∧
      readPort p s = .next { s with got := (p, Config.anyValue s.draws) :: s.got, draws := s.draws + 1 }) ∨
    (portExists s.cfg p = false ∧ readPort p s = .refused .notAHostMove) := by
  unfold readPort
  by_cases h : portExists s.cfg p = true
  · rw [if_pos h]
    cases hv : portValue p s with
    | none => exact .inr (.inl ⟨h, rfl, rfl⟩)
    | some v => exact .inl ⟨h, v, rfl, rfl⟩
  · rw [if_neg h]
    exact .inr (.inr ⟨by simpa using h, rfl⟩)

/-- One lemma per kind of event: what step is, for each head of the host's list (R262). -/
theorem step_idle {s : State} (h : s.todo = []) : step s = .next s := by
  simp [step, nextEvent, h]

theorem step_reset {s : State} {rest : List HostAction} (h : s.todo = .reset :: rest) :
    step s = .next { s with ph := .loading, buf := [], code := .ok, result := .none, todo := rest } := by
  simp [step, nextEvent, h, perform, State.resetBlock]

theorem step_write {s : State} {cw : Word} {rest : List HostAction} (h : s.todo = .write cw :: rest) :
    step s = deliver cw { s with todo := rest } := by
  simp [step, nextEvent, h, perform]

theorem step_read {s : State} {p : Port} {rest : List HostAction} (h : s.todo = .read p :: rest) :
    step s = readPort p { s with todo := rest } := by
  simp [step, nextEvent, h, perform]

end Sys2Proof.Machine
end

