-- ==== Sys2Proof/Laws/PerInstr.lean ====
section
/-! SUPPORT. Statements made per command: `OpcodeSpelled`, about the command as syntax: the opcode field of its word is
the command's opcode, which is not reserved (30_encoding.md R71, R75). -/

namespace Sys2Proof.Laws

theorem opField_packWord (op : BitVec 4) (a : BitVec 12) (b : BitVec 16) : opField (packWord op a b) = op := by
  ext i hi
  simp only [opField, packWord, BitVec.getElem_extractLsb', BitVec.getLsbD_append]
  have h1 : ¬ 28 + i < 16 := by omega
  have h2 : ¬ 28 + i - 16 < 12 := by omega
  simp [h1, h2, ← BitVec.getLsbD_eq_getElem, show 28 + i - 16 - 12 = i by omega]

theorem aField_packWord (op : BitVec 4) (a : BitVec 12) (b : BitVec 16) : aField (packWord op a b) = a := by
  ext i hi
  simp only [aField, packWord, BitVec.getElem_extractLsb', BitVec.getLsbD_append]
  have h1 : ¬ 16 + i < 16 := by omega
  have h2 : 16 + i - 16 < 12 := by omega
  simp [h1, ← BitVec.getLsbD_eq_getElem, hi]

theorem bField_packWord (op : BitVec 4) (a : BitVec 12) (b : BitVec 16) : bField (packWord op a b) = b := by
  ext i hi
  simp only [bField, packWord, BitVec.getElem_extractLsb', BitVec.getLsbD_append]
  simp [← BitVec.getLsbD_eq_getElem, hi]

end Sys2Proof.Laws

namespace Sys2Proof.Laws.OpcodeSpelled

/-- The opcode field of the command's word is its opcode, and that opcode is not reserved. -/
def Statement (i : Instr) : Prop := opField (encode i) = i.opcode ∧ opReserved i.opcode = false

theorem clr : Statement .clr := ⟨opField_packWord _ _ _, by decide⟩

theorem app (cnt : BitVec 12) (data : BitVec 16) : Statement (.app cnt data) :=
  ⟨opField_packWord _ _ _, (by decide : opReserved 0x2 = false)⟩

theorem sealBuf : Statement .sealBuf := ⟨opField_packWord _ _ _, by decide⟩

theorem len : Statement .len := ⟨opField_packWord _ _ _, by decide⟩

theorem getu (offset : BitVec 16) (width : BitVec 12) : Statement (.getu offset width) :=
  ⟨opField_packWord _ _ _, (by decide : opReserved 0x5 = false)⟩

theorem gets (offset : BitVec 16) (width : BitVec 12) : Statement (.gets offset width) :=
  ⟨opField_packWord _ _ _, (by decide : opReserved 0x6 = false)⟩

theorem gett (offset : BitVec 16) (width : BitVec 12) : Statement (.gett offset width) :=
  ⟨opField_packWord _ _ _, (by decide : opReserved 0x7 = false)⟩

end Sys2Proof.Laws.OpcodeSpelled
end

