-- ==== Sys2Proof/Tests/Slice0.lean ====
section
/-! SUPPORT. The model's own tests (expected results from 95_test_vectors.md and the rules' own examples), and one named
witness per clause of a statement that has hypotheses. -/

namespace Sys2Proof.Tests

open Sys2Proof Sys2Proof.Machine

/-! ## Helpers -/

/-- The next state, if there is one. -/
def nextOf (o : Host.Outcome State Fault Refusal) : Option State :=
  match o with
  | .next t => some t
  | .fault _ => none
  | .refused _ => none

/-- What a command leaves in `CODE` and `R`. -/
def answerOf (i : Instr) (s : State) : Option (Code × Result) := (nextOf (exec i s)).map fun t => (t.code, t.result)

/-- `Sealed(m)` with the capacity `cap`. -/
def sealedWith (cap : Nat) (m : Memory) : State := { State.resetOf ⟨cap⟩ with ph := .sealed, buf := m }

/-- `Loading(m)` with the capacity `cap`. -/
def loadingWith (cap : Nat) (m : Memory) : State := { State.resetOf ⟨cap⟩ with buf := m }

/-- Buffer T1 of 95_test_vectors.md section 2: bytes `15 8C F0 0F A5 5A`. -/
def bufT1 : Memory := bitsOf 48 0x158CF00FA55A

/-- Buffer T2 of section 3: `101`, then fourteen groups. -/
def bufT2 : Memory :=
  [true, false, true] ++ [1, 0, 2, 32, 32, 0, 0, 0, 32, 0, 26, 57, 63, 31].flatMap (bitsOf 6)

def stT1 : State := sealedWith 1024 bufT1
def stT2 : State := sealedWith 1024 bufT2

/-- The host's next action on a state. -/
def doing (a : HostAction) (s : State) : State := { s with todo := [a] }

/-- A host about to read `p` from a block that holds `r`. -/
def reading (p : Port) (r : Result) : State := doing (.read p) { stT1 with result := r }

/-! ## WellFormed: an ill-formed term for each check (R73, R80) -/

theorem test_wf_cnt_zero : (Instr.app 0 5).wf = false := by decide
theorem test_wf_cnt_seventeen : (Instr.app 17 5).wf = false := by decide
theorem test_wf_cnt_bounds : (Instr.app 1 5).wf = true ∧ (Instr.app 16 5).wf = true := by decide
theorem test_wf_getu_zero : (Instr.getu 0 0).wf = true ∧ (Instr.getu 65535 4095).wf = true := by decide
theorem test_canonical_refuses : (Instr.app 3 0xFFFD).canonical = false ∧ (Instr.app 3 5).canonical = true := by decide

/-! ## Decode: words written out bit by bit from R72 to R75, and the illegal words of section 5 -/

theorem test_decode_clr : decode 0b0001_000000000000_0000000000000000#32 = .command .clr := by decide
theorem test_decode_app :
    decode 0b0010_000000000011_1111111111111101#32 = .command (.app 3 0xFFFD) := by decide
theorem test_decode_seal : decode 0b0011_000000000000_0000000000000000#32 = .command .sealBuf := by decide
theorem test_decode_len : decode 0b0100_000000000000_0000000000000000#32 = .command .len := by decide
theorem test_decode_getu :
    decode 0b0101_000000011110_0000000000001000#32 = .command (.getu 8 30) := by decide
theorem test_decode_gets :
    decode 0b0110_111111111111_1111111111111111#32 = .command (.gets 65535 4095) := by decide
theorem test_decode_gett :
    decode 0b0111_000000100100_0000000000000011#32 = .command (.gett 3 36) := by decide
theorem test_decode_reserved :
    decode 0x00000000 = .illegal (.reservedOpcode 0) ∧ decode 0x80000000 = .illegal (.reservedOpcode 8) ∧
    decode 0x90001234 = .illegal (.reservedOpcode 9) ∧ decode 0xFFFFFFFF = .illegal (.reservedOpcode 15) := by decide
theorem test_decode_formatZ_bits :
    decode 0x10000001 = .illegal (.reservedBits 1) ∧ decode 0x30010000 = .illegal (.reservedBits 3) ∧
    decode 0x40000001 = .illegal (.reservedBits 4) ∧ decode 0x40008000 = .illegal (.reservedBits 4) := by decide
theorem test_decode_bad_count :
    decode 0x20000000 = .illegal (.badCount 0) ∧ decode 0x20000001 = .illegal (.badCount 0) ∧
    decode 0x20110000 = .illegal (.badCount 17) ∧ decode 0x2FFF0000 = .illegal (.badCount 4095) := by decide
theorem test_decodeTableWord :
    decodeTableWord 32 0x70060003 = some (.gett 3 6) ∧ decodeTableWord 32 0x20000000 = none ∧
    decodeTableWord 64 0x10000000 = none := by decide
/-- R83's canonical word of a spelling with ignored bits set (R86). -/
theorem test_encode_canonical : encode (.app 3 0xFFFD) = 0x20030005 ∧ encode (.gets 5 11) = 0x600B0005 := by decide

/-! ## Commands (sections 2 to 5) -/

theorem test_clr_discards :
    (nextOf (exec .clr stT1)).map (fun t => (t.n, statusWord t)) = some (0, 0) := by decide
/-- `APP 3, 0xFFFD` appends 101. -/
theorem test_app_ignores_upper_bits :
    (nextOf (exec (.app 3 0xFFFD) State.reset)).map (·.buf) = some [true, false, true] := by decide
/-- `NMAX = 40`, `N = 32`: `APP 9` overflows, `APP 8` fills. -/
theorem test_app_capacity :
    (nextOf (exec (.app 9 0) (loadingWith 40 (bitsOf 32 0)))).map (fun t => (t.n, statusWord t)) = some (32, 5) ∧
    (nextOf (exec (.app 8 0x5A) (loadingWith 40 (bitsOf 32 0)))).map (·.n) = some 40 := by decide
theorem test_seal_empty : (nextOf (exec .sealBuf State.reset)).map statusWord = some 0x40 := by decide
theorem test_seal_twice : answerOf .sealBuf stT1 = some (.eState, .none) := by decide
theorem test_len_T1 :
    (nextOf (exec .len stT1)).map (fun t => (t.result, statusWord t)) = some (.int 0x30, 0x50) := by decide
theorem test_len_loading : (nextOf (exec .len State.reset)).map statusWord = some 3 := by decide
/-- `GETU 7, 32` crosses five bytes. -/
theorem test_getu_five_bytes : answerOf (.getu 7 32) stT1 = some (.ok, .int 0xC67807D2) := by decide
/-- Section 2's faults: range before width, in range but too wide, no wrap of the sum. -/
theorem test_getu_faults :
    answerOf (.getu 16 33) stT1 = some (.eRange, .none) ∧ answerOf (.getu 0 33) stT1 = some (.eWidth, .none) ∧
    answerOf (.getu 65535 4095) stT1 = some (.eRange, .none) := by decide
theorem test_gets_negative : answerOf (.gets 5 11) stT1 = some (.ok, .int 0xFFFFFD8C) := by decide
theorem test_gets_one_bit :
    answerOf (.gets 3 1) stT1 = some (.ok, .int 0xFFFFFFFF) ∧ answerOf (.gets 47 1) stT1 = some (.ok, .int 0) := by decide
theorem test_gett_interior_and_trailing :
    answerOf (.gett 3 36) stT2 = some (.ok, .text [0x41, 0x40, 0x42]) ∧
    answerOf (.gett 39 24) stT2 = some (.ok, .text []) ∧
    answerOf (.gett 3 0) stT2 = some (.eRange, .none) ∧ answerOf (.gett 3 35) stT2 = some (.eRange, .none) := by decide
/-- T1 as text: 48 bits, no `E_WIDTH`. -/
theorem test_gett_T1 :
    answerOf (.gett 0 48) stT1 = some (.ok, .text [0x45, 0x58, 0x33, 0x30, 0x43, 0x3A, 0x55, 0x5A]) := by decide

/-! ## Events and ports -/

/-- Section 5: an illegal word before the phase check, and it does not clear. -/
theorem test_illegal_words :
    (nextOf (step (doing (.write 0x2011FFFF) stT1))).map statusWord = some 0x42 ∧
    (nextOf (step (doing (.write 0x10000001) stT1))).map (·.buf) = some bufT1 := by decide
/-- The next step from reset runs the word that `withFetchWord` places. -/
theorem test_fetch_word :
    (nextOf (step (State.reset.withFetchWord 32 0x2010158C))).map (·.buf) = some (bitsOf 16 0x158C) := by decide
theorem test_reset_event : (nextOf (step (doing .reset stT1))) = some State.reset := by decide
theorem test_read_text_cell :
    (nextOf (step (reading (.txt 1) (.text [0x41, 0x40])))).map (·.got) = some [(.txt 1, 0x40)] := by decide
theorem test_read_res : (nextOf (step (reading .res (.int 0x18C)))).map (·.got) = some [(.res, 0x18C)] := by decide
/-- R239: a port read after an old fault is no fault of the run; a command that faults is. -/
theorem test_fault_free :
    faultFree 1 { doing (.read .status) stT1 with code := .eRange } = true ∧
    faultFree 1 (doing (.write 0x50000000) stT1) = false ∧
    faultFree 1 (doing (.write 0x50010000) { stT1 with code := .eRange }) = true := by decide
/-- R33, U2: `TXT[TMAX]` is no move. -/
theorem test_read_no_port : nextOf (step (doing (.read (.txt 2)) (sealedWith 12 []))) = none := by decide
/-- R62's map. -/
theorem test_port_map :
    busAction ⟨12⟩ (.load 0x1004 4) = .read (.txt 1) ∧ busAction ⟨12⟩ (.load 0x1008 4) = .otherAccess ∧
    busAction ⟨12⟩ (.store 0x000 4 0x40000000) = .write 0x40000000 ∧ busAction ⟨12⟩ (.load 0x000 4) = .readCmd ∧
    busAction ⟨12⟩ (.store 0x008 4 1) = .writePort .res 1 ∧ busAction ⟨12⟩ (.load 0x008 2) = .otherAccess := by decide

/-! ## Datapath (section 6): T1 in the byte store -/

def storeT1 : List Byte := [0x15, 0x8C, 0xF0, 0x0F, 0xA5, 0x5A, 0, 0, 0, 0]

theorem test_shift_mask :
    shiftMask storeT1 6 10 = 0x18C ∧ shiftMask storeT1 7 32 = 0xC67807D2 ∧ shiftMask storeT1 44 4 = 0xA ∧
    gather storeT1 0 5 = 0x158CF00FA5 ∧ shiftMask40 storeT1 6 10 = 0x18C := by decide
theorem test_sign_stage : signStage 0x58C 11 = 0xFFFFFD8C ∧ signStageXor 0x58C 11 = 0xFFFFFD8C := by decide
theorem test_wire_char : wireChar 1 = 0x41 ∧ wireChar 57 = 0x39 ∧ wireChar 0 = 0x40 ∧ wireChar 32 = 0x20 := by decide
/-- `N = 3`, `APP 1, 0`: bit 4 of `BY[0]` is cleared and nothing else changes. -/
theorem test_append_merge : appendPath [0xFF, 0xFF, 0xFF] 3 1 0 = [0xEF, 0xFF, 0xFF] := by decide

/-! ## Assembler and client layouts -/

theorem test_assemble :
    assemble (.app 3 0xFFFD) = some 0x20030005 ∧ assemble (.getf 8 38) = some 0x501E0008 ∧
    assemble (.getu 65536 1) = none ∧ assemble (.app 0 0) = none ∧ assemble (.getu 0 0) = some 0x50000000 := by decide
theorem test_parse_line :
    parseLine ['G', 'E', 'T', 'U', ' ', '6', ',', ' ', '0', 'x', 'A', ' ', ';', 'n'] = some (.getu 6 10) := by decide
/-- S7: UTC second 10 and flag 0; UTC second 61. -/
theorem test_off_position :
    (offPosition (sealedWith 300 (bitsOf 259 10))).1.toOption = some .inPosition ∧
    (offPosition (sealedWith 300 (bitsOf 259 (2 ^ 95 + 61)))).1.toOption = some .notApplicable ∧
    (offPosition (sealedWith 300 (bitsOf 259 (2 ^ 95 + 10)))).1.toOption = some .offPosition := by decide +kernel
/-- S8: 272 bits give the empty string, 278 bits one character. -/
theorem test_name_extension :
    (nameExtension (sealedWith 300 (bitsOf 272 0))).1.toOption = some [] ∧
    (nameExtension (sealedWith 300 (bitsOf 278 24))).1.toOption = some [0x58] := by decide +kernel
/-- S6, R187: raw 0 is absent; hour 24 by the host's parameter. -/
theorem test_eta :
    postNumber ⟨0, 0, false, 21⟩ (.eta none) 0 = .absent ∧
    postNumber ⟨0, 0, false, 21⟩ (.eta (some 24)) 24 = .number 24 ∧
    postNumber ⟨0, 0, true, 21⟩ (.eta (some 24)) 24 = .absent := by decide
/-- S5: 75 / 10 = 7.5. -/
theorem test_draught : postNumber ⟨0, 0, false, 21⟩ .tenths 75 = .fraction (15 / 2) := by
  simp only [postNumber]; norm_num
/-- The error of a host procedure, if it ended in one. -/
def errorOf {α : Type} (r : Except HostError α) : Option HostError :=
  match r with
  | .ok _ => none
  | .error e => some e

/-- R181, R183: a payload `000101` is of type A, unusable when the host asks for 7 bits; S9; a payload that does not fit. -/
theorem test_decode_message :
    (decodeMessage ⟨6, 0, false, 21⟩ (bitsOf 6 5) (loadingWith 6 [])).1.toOption = some ⟨.typeA, .valid⟩ ∧
    (decodeMessage ⟨7, 0, false, 21⟩ (bitsOf 6 5) stT1).1.toOption = some ⟨.typeA, .invalid⟩ ∧
    errorOf (decodeMessage ⟨0, 0, false, 21⟩ (bitsOf 6 1) stT1).1 = some .unsupportedType ∧
    errorOf (decodeMessage ⟨0, 0, false, 21⟩ (bitsOf 6 5) (loadingWith 5 [])).1 = some (.block .eCapacity) := by
  decide +kernel
/-- R191: the UTC second has no accessor, the off-position indicator has one (S7), and only for type B; R183: an
`INVALID` decoder reads the bits that are there, and one outside the buffer is `E_RANGE`. -/
theorem test_serve :
    errorOf (serve ⟨0, 0, false, 21⟩ ⟨.typeB, .valid⟩ (.field utcSecond) (sealedWith 300 (bitsOf 259 10))).1 =
      some .noAccessor ∧
    (serve ⟨0, 0, false, 21⟩ ⟨.typeB, .invalid⟩ .offPosition (sealedWith 300 (bitsOf 259 10))).1.toOption =
      some (.position .inPosition) ∧
    errorOf (serve ⟨0, 0, false, 21⟩ ⟨.typeA, .valid⟩ .offPosition stT1).1 = some .noAccessor ∧
    errorOf (serve ⟨0, 0, false, 21⟩ ⟨.typeB, .invalid⟩ (.field accuracyFlag) stT1).1 = some (.block .eRange) := by
  decide +kernel
/-- R183, C4: the validity state changes once. -/
theorem test_settle_once :
    settleValidity ⟨6, 0, false, 21⟩ 6 (newDecoder .typeA) = ⟨.typeA, .valid⟩ ∧
    settleValidity ⟨6, 0, false, 21⟩ 5 ⟨.typeA, .valid⟩ = ⟨.typeA, .valid⟩ := by decide
/-- S9: an unregistered discriminant. -/
theorem test_dispatch :
    dispatchType ⟨0, 0, false, 21⟩ 5 = some .typeA ∧ dispatchType ⟨0, 0, false, 21⟩ 21 = some .typeB ∧
    dispatchType ⟨0, 0, false, 21⟩ 1 = none := by decide

/-! ## Witnesses: for each statement with hypotheses, what meets them, one per clause at a boundary -/

/-- A sealed state with the answer `r` meets the invariants when `r` does. -/
theorem inv_sealed (cap : Nat) (m : Memory) (h : 1 ≤ cap ∧ cap ≤ 65535) (hm : m.length ≤ cap) :
    Inv (sealedWith cap m) :=
  ⟨h, decide_eq_true hm, fun h => absurd rfl h, fun h => absurd rfl h,
    fun _ h => by cases h⟩

theorem wit_WordsDecodeByTheirFields :
    decode 0x10000000 = .command .clr ∧ decode 0x20010000 = .command (.app 1 0) ∧
    decode 0x2010FFFF = .command (.app 16 0xFFFF) ∧ decode 0x30000000 = .command .sealBuf ∧
    decode 0x40000000 = .command .len ∧ decode 0x50000000 = .command (.getu 0 0) ∧
    decode 0x6FFFFFFF = .command (.gets 65535 4095) ∧ decode 0x7FFC0000 = .command (.gett 0 4092) := by decide

theorem wit_OpcodeMapSelectsTheCommand :
    decode 0x20100000 = .command (.app 16 0) ∧
    (⟨"APP", 0x20000000, 0xF0000000⟩ : OpcodeRow) ∈ opcodeMap ∧
    (0x20100000 : Word) &&& 0xF0000000 = 0x20000000 ∧
    1 ≤ (aField 0x20100000).toNat ∧ (aField 0x20100000).toNat ≤ 16 := by decide

theorem wit_DecodeEncodeAgree :
    ((Instr.app 16 0xFFFF).wf = true ∧ (Instr.app 16 0xFFFF).canonical = true) ∧
    ((Instr.app 1 1).wf = true ∧ (Instr.app 1 1).canonical = true) ∧
    (decode 0x2003FFFD = .command (.app 3 0xFFFD) ∧ (Instr.app 3 0xFFFD).canonical = false) ∧
    decode 0x2011FFFF = .illegal (.badCount 17) := by decide

theorem wit_AssemblerSpellsTheCommand :
    (65535 ≤ 65535 ∧ 4095 ≤ 4095) ∧ (1 ≤ 1 ∧ 1 ≤ 16 ∧ 65535 ≤ 65535) ∧ (1 ≤ 16 ∧ 16 ≤ 16) := by decide

theorem wit_StepRunsTheDecodedCommand :
    (doing (.write 0x501E0008) stT1).todo = .write 0x501E0008 :: [] ∧
    decode 0x501E0008 = .command (.getu 8 30) := by decide

/-- One word per disjunct, at the ends of its range. -/
theorem wit_IllegalWordsOnlyReport :
    (doing (.write 0x0FFFFFFF) stT1).todo = .write 0x0FFFFFFF :: [] ∧ 0x0FFFFFFF / 2 ^ 28 = 0 ∧
    8 ≤ 0x80000000 / 2 ^ 28 ∧ 8 ≤ 0xFFFFFFFF / 2 ^ 28 ∧
    (0x10000001 / 2 ^ 28 = 1 ∧ 0x10000001 % 2 ^ 28 ≠ 0) ∧ (0x38000000 / 2 ^ 28 = 3 ∧ 0x38000000 % 2 ^ 28 ≠ 0) ∧
    (0x40008000 / 2 ^ 28 = 4 ∧ 0x40008000 % 2 ^ 28 ≠ 0) ∧
    (0x20000001 / 2 ^ 28 = 2 ∧ 0x20000001 / 2 ^ 16 % 2 ^ 12 = 0) ∧
    (0x20110000 / 2 ^ 28 = 2 ∧ 16 < 0x20110000 / 2 ^ 16 % 2 ^ 12) := by decide

theorem wit_ResetEventGivesTheResetTable : (doing .reset stT2).todo = .reset :: [] := by decide

/-- With `NMAX = 12` there are two text cells, `TXT[2]` is the first that is no port; at the largest `NMAX` it is
`TXT[682]`. -/
theorem wit_NonMovesStopAndIdleStays :
    ((doing (.read (.txt 2)) (sealedWith 12 [])).todo = .read (.txt 2) :: [] ∧
      min 682 ((sealedWith 12 []).cfg.nmax / 6) ≤ 2) ∧
    min 682 ((sealedWith 65535 []).cfg.nmax / 6) = 682 ∧
    (doing .readCmd stT1).todo = .readCmd :: [] ∧
    (doing (.writePort .res 7) stT1).todo = .writePort .res 7 :: [] ∧
    (doing .otherAccess stT1).todo = .otherAccess :: [] ∧ stT1.todo = [] := by decide

/-- The least and the greatest word of opcode 1 that are not `CLR`. -/
theorem wit_ClrStartsAConstruction :
    ((0x10000001 : Word).toNat / 2 ^ 28 = 1 ∧ (0x10000001 : Word).toNat % 2 ^ 28 ≠ 0) ∧
    ((0x1FFFFFFF : Word).toNat / 2 ^ 28 = 1 ∧ (0x1FFFFFFF : Word).toNat % 2 ^ 28 ≠ 0) := by decide

/-- `NMAX = 40`, `N = 32`: `APP 9` does not fit, `APP 8` fits exactly; counts 1 and 16; both phases. -/
theorem wit_AppAppendsTheBits :
    (1 ≤ (1 : BitVec 12).toNat ∧ (16 : BitVec 12).toNat ≤ 16) ∧
    (0x2010FFFF : Word).toNat = 0x20000000 + (16 : BitVec 12).toNat * 2 ^ 16 + (0xFFFF : BitVec 16).toNat ∧
    ((0x2000FFFF : Word).toNat / 2 ^ 28 = 2 ∧ (0x2000FFFF : Word).toNat / 2 ^ 16 % 2 ^ 12 = 0) ∧
    ((0x20110000 : Word).toNat / 2 ^ 28 = 2 ∧ 16 < (0x20110000 : Word).toNat / 2 ^ 16 % 2 ^ 12) ∧
    stT1.ph ≠ .loading ∧ (loadingWith 40 (bitsOf 32 0)).ph = .loading ∧
    (loadingWith 40 (bitsOf 32 0)).cfg.nmax < (loadingWith 40 (bitsOf 32 0)).n + (9 : BitVec 12).toNat ∧
    (loadingWith 40 (bitsOf 32 0)).n + (8 : BitVec 12).toNat ≤ (loadingWith 40 (bitsOf 32 0)).cfg.nmax := by decide

theorem wit_AppIgnoresTheUpperDataBits :
    ∀ j, j < (3 : BitVec 12).toNat → (0xFFFD : BitVec 16).getLsbD j = (5 : BitVec 16).getLsbD j := by decide

theorem wit_SealEndsTheConstruction : State.reset.ph = .loading ∧ stT1.ph ≠ .loading := by decide

/-- T1 in three pieces, into a block it fills exactly. -/
theorem wit_ConstructionConcatenates :
    let pieces : List (BitVec 12 × BitVec 16) := [(16, 0x158C), (16, 0xF00F), (16, 0xA55A)]
    let s : State := { loadingWith 48 [] with todo := constructActions pieces ++ [.read .status] }
    s.ph = .loading ∧ s.buf = [] ∧ (∀ p ∈ pieces, 1 ≤ p.1.toNat ∧ p.1.toNat ≤ 16) ∧
    (payloadOf pieces).length ≤ s.cfg.nmax ∧ payloadOf pieces = bufT1 ∧
    s.todo = constructActions pieces ++ [.read .status] :=
  ⟨rfl, rfl, by simp, by decide, by decide, rfl⟩

/-- A sealed block whose host tries to append, seals again and extracts. -/
theorem wit_SealedBufferIsImmutable :
    let s : State := { stT1 with todo := [.write 0x20010001, .write 0x30000000, .write 0x500A0006] }
    s.ph = .sealed ∧ (∀ a ∈ s.todo.take 3, reopens a = false) ∧
    nextOf (runFor 3 s) = some { s with todo := [], result := .int 0x18C } := by decide

theorem wit_EmptyBufferIsLegal :
    (State.reset.n = 0 ∧ State.reset.ph = .loading) ∧ ((sealedWith 1 []).n = 0 ∧ (sealedWith 1 []).ph = .sealed) := by
  decide

/-- An empty and a full block, sealed, and one still loading. -/
theorem wit_LenReturnsTheLength :
    Inv (sealedWith 1 []) ∧ Inv (sealedWith 48 bufT1) ∧ stT1.ph = .sealed ∧
    Inv (State.resetOf ⟨65535⟩) ∧ (State.resetOf ⟨65535⟩).ph ≠ .sealed :=
  ⟨inv_sealed _ _ (by decide) (by decide), inv_sealed _ _ (by decide) (by decide), rfl,
    ⟨(by decide : (⟨65535⟩ : Config).Wf), rfl, fun h => absurd rfl h, fun h => absurd rfl h, fun _ h => by cases h⟩, by decide⟩

/-- Each clause on T1 (`N = 48`): loading; width 0; one bit past the end; 33 bits in range; 32 bits to the last bit. -/
theorem wit_GetuReturnsTheField :
    (0x50200010 : Word).toNat = 0x50000000 + (32 : BitVec 12).toNat * 2 ^ 16 + (16 : BitVec 16).toNat ∧
    State.reset.ph ≠ .sealed ∧ stT1.ph = .sealed ∧ (0 : BitVec 12).toNat = 0 ∧
    stT1.n < (47 : BitVec 16).toNat + (2 : BitVec 12).toNat ∧
    ((15 : BitVec 16).toNat + (33 : BitVec 12).toNat ≤ stT1.n ∧ 32 < (33 : BitVec 12).toNat) ∧
    ((16 : BitVec 16).toNat + (32 : BitVec 12).toNat ≤ stT1.n ∧ (32 : BitVec 12).toNat ≤ 32) := by decide

/-- The same operands for `GETS`; the last clause on a field whose sign bit is set and on one whose sign bit is not. -/
theorem wit_GetsReturnsTheSignedField :
    (0x600B0005 : Word).toNat = 0x60000000 + (11 : BitVec 12).toNat * 2 ^ 16 + (5 : BitVec 16).toNat ∧
    State.reset.ph ≠ .sealed ∧ stT1.ph = .sealed ∧ (0 : BitVec 12).toNat = 0 ∧
    stT1.n < (47 : BitVec 16).toNat + (2 : BitVec 12).toNat ∧
    ((15 : BitVec 16).toNat + (33 : BitVec 12).toNat ≤ stT1.n ∧ 32 < (33 : BitVec 12).toNat) ∧
    ((16 : BitVec 16).toNat + (32 : BitVec 12).toNat ≤ stT1.n ∧ bitAt stT1.buf 16 = true) ∧
    ((47 : BitVec 16).toNat + (1 : BitVec 12).toNat ≤ stT1.n ∧ bitAt stT1.buf 47 = false) := by decide

/-- One bit and 32 bits, the latter ending at the last bit (`UnsignedResultRange`, `SignedResultRange`,
`TwosComplementConsistency`). -/
theorem wit_ResultRanges :
    stT1.ph = .sealed ∧
    (1 ≤ (1 : BitVec 12).toNat ∧ (1 : BitVec 12).toNat ≤ 32 ∧ (47 : BitVec 16).toNat + (1 : BitVec 12).toNat ≤ stT1.n) ∧
    (1 ≤ (32 : BitVec 12).toNat ∧ (32 : BitVec 12).toNat ≤ 32 ∧
      (16 : BitVec 16).toNat + (32 : BitVec 12).toNat ≤ stT1.n) := by decide

/-- `GETU 16, 33` on T1 is out of range and too wide; `GETU 15, 33` is in range and too wide. -/
theorem wit_WidthRefusalExactly :
    (nextOf (exec (.getu 16 33) stT1) = some { stT1 with code := .eRange } ∧ stT1.ph = .sealed ∧
      33 ≤ (33 : BitVec 12).toNat ∧ stT1.n < (16 : BitVec 16).toNat + (33 : BitVec 12).toNat) ∧
    nextOf (exec (.getu 15 33) stT1) = some { stT1 with code := .eWidth } := by decide

/-- A field that ends at the last bit, and the empty field (`FieldValueIsTheSum`, `BitSerialDefinitionAgrees`). -/
theorem wit_FieldValueIsTheSum :
    16 + 32 ≤ bufT1.length ∧ 48 + 0 ≤ bufT1.length ∧ (1 ≤ 32 ∧ 32 ≤ 32) := by decide

theorem wit_SubFieldLaw : (5 + 11 ≤ bufT1.length ∧ 1 ≤ 10 ∧ 10 < 11) ∧ (47 + 1 ≤ bufT1.length ∧ 0 ≤ 0 ∧ 0 < 1) := by
  decide

/-- Width 32 with the greatest value, width 1 with both values. -/
theorem wit_SignExtensionLaw :
    (1 ≤ 32 ∧ 32 ≤ 32 ∧ 0xFFFFFFFF ≤ 2 ^ 32 - 1 ∧ 2 ^ (32 - 1) ≤ 0xFFFFFFFF) ∧
    (1 ≤ 1 ∧ 0 ≤ 2 ^ 1 - 1 ∧ 0 < 2 ^ (1 - 1)) ∧ (1 ≤ 2 ^ 1 - 1 ∧ 2 ^ (1 - 1) ≤ 1) := by decide

theorem wit_ConcatenationLaw : 1 ≤ 6 ∧ 1 ≤ 42 ∧ 0 + 6 + 42 ≤ bufT1.length := by decide

/-- `APP 8` that fills a block of 40 bits. -/
theorem wit_AppendedBitsReadBack :
    let s := loadingWith 40 (bitsOf 32 0)
    s.cfg.Wf ∧ s.ph = .loading ∧ 1 ≤ (8 : BitVec 12).toNat ∧ (8 : BitVec 12).toNat ≤ 16 ∧
    s.n + (8 : BitVec 12).toNat ≤ s.cfg.nmax := by decide

theorem wit_RangeContractExactly : stT2.ph = .sealed := by decide

theorem wit_ExtractionsReadOnlyAndIdempotent :
    ∃ o w, Instr.gett 3 36 = .getu o w ∨ Instr.gett 3 36 = .gets o w ∨ Instr.gett 3 36 = .gett o w :=
  ⟨3, 36, .inr (.inr rfl)⟩

/-- An `APP` that lengthens the buffer and a `CLR` that changes the phase and empties it (`WritesAreAppendOnly`,
`OnlyNamedCommandsWritePhaseAndLength`). -/
theorem wit_OnlyNamedCommandsWritePhaseAndLength :
    nextOf (step (doing (.write 0x20010001) State.reset)) = some { State.reset with buf := [true] } ∧
    (nextOf (step (doing (.write 0x10000000) stT1))).map (fun t => (t.ph, t.n)) = some (.loading, 0) ∧
    stT1.ph ≠ .loading ∧ stT1.n ≠ 0 := by decide

/-- Each clause on T2 (`N = 87`): loading; width 0; one group past the end; width 7; a field to the last bit. -/
theorem wit_GettReturnsTheText :
    (0x70240003 : Word).toNat = 0x70000000 + (36 : BitVec 12).toNat * 2 ^ 16 + (3 : BitVec 16).toNat ∧
    State.reset.ph ≠ .sealed ∧ stT2.ph = .sealed ∧ (0 : BitVec 12).toNat = 0 ∧
    stT2.n < (82 : BitVec 16).toNat + (6 : BitVec 12).toNat ∧ (7 : BitVec 12).toNat % 6 ≠ 0 ∧
    ((84 : BitVec 12).toNat ≠ 0 ∧ (3 : BitVec 16).toNat + (84 : BitVec 12).toNat ≤ stT2.n ∧
      (84 : BitVec 12).toNat % 6 = 0) := by decide

/-- The groups 0, 0, 32, 0 at bit 39 of T2. -/
theorem wit_AllPadFieldIsTheEmptyString :
    stT2.ph = .sealed ∧ (24 : BitVec 12).toNat ≠ 0 ∧ (39 : BitVec 16).toNat + (24 : BitVec 12).toNat ≤ stT2.n ∧
    (24 : BitVec 12).toNat % 6 = 0 ∧
    ∀ j, j < (24 : BitVec 12).toNat / 6 →
      fieldSum stT2.buf ((39 : BitVec 16).toNat + 6 * j) 6 = 0 ∨
      fieldSum stT2.buf ((39 : BitVec 16).toNat + 6 * j) 6 = 32 := by decide

/-- `A@B`. -/
theorem wit_InteriorPadsAreKept :
    isPadCode 0x40 ∧ (0x42 : Byte) ∈ ([0x42] : List Byte) ∧ ¬ isPadCode 0x42 ∧
    trim ([0x41] ++ 0x40 :: [0x42]) = [0x41, 0x40, 0x42] := by decide

theorem wit_GroupsAreWhatGetuReturns :
    Inv stT2 ∧ stT2.ph = .sealed ∧ (84 : BitVec 12).toNat ≠ 0 ∧
    (3 : BitVec 16).toNat + (84 : BitVec 12).toNat ≤ stT2.n ∧ (84 : BitVec 12).toNat % 6 = 0 :=
  ⟨inv_sealed _ _ (by decide) (by decide), rfl, by decide, by decide, by decide⟩

/-- `A@B` with two spaces and an `@` after it, and `A@B` alone, stand at bit 3 of T2. -/
theorem wit_TextRoundTrip :
    let padded : List Byte := [0x41, 0x40, 0x42, 0x20, 0x20, 0x40]
    let plain : List Byte := [0x41, 0x40, 0x42]
    stT2.ph = .sealed ∧
    (padded ≠ [] ∧ (∀ c ∈ padded, isCharCode c) ∧ (36 : BitVec 12).toNat = 6 * padded.length ∧
      StandsAt (packText padded) stT2.buf (3 : BitVec 16).toNat) ∧
    ((∀ c ∈ plain, isCharCode c) ∧ (18 : BitVec 12).toNat = 6 * plain.length ∧
      StandsAt (packText plain) stT2.buf (3 : BitVec 16).toNat ∧
      plain.getLast? = some 0x42 ∧ ¬ isPadCode 0x42) := by decide

/-- A text that fills the two cells of a block of 12 bits. -/
theorem wit_TextResultFitsTheFile :
    let s := sealedWith 12 (bitsOf 12 0x042)
    Memory.wf s.cfg.nmax s.buf = true ∧
    nextOf (exec (.gett 0 12) s) = some { s with result := .text [0x41, 0x42] } ∧ s.cfg.tmax = 2 := by decide

/-- Every clause: the port with its value and without; `TXT[t-1]` and `TXT[t]`, and the last cell of a block. -/
theorem wit_PortReadsGiveTheResult :
    (reading .status .none).todo = .read .status :: [] ∧ (reading .res (.int 5)).result = .int 5 ∧
    (∀ v, (reading .res .none).result ≠ .int v) ∧ (reading .tlen (.text [0x41])).result = .text [0x41] ∧
    (∀ t, (reading .tlen (.int 5)).result ≠ .text t) ∧
    (0 < [(0x41 : Byte)].length ∧ 0 < min 682 (stT1.cfg.nmax / 6) ∧ (reading (.txt 0) (.text [0x41])).result = .text [0x41]) ∧
    (1 < min 682 (stT1.cfg.nmax / 6) ∧ [(0x41 : Byte)].length ≤ 1) ∧ min 682 (stT1.cfg.nmax / 6) = 169 + 1 := by
  refine ⟨rfl, rfl, ?_, rfl, ?_, by decide, by decide, by decide⟩ <;> intro v h <;> cases h

theorem wit_PortReadsHaveNoSideEffect :
    (nextOf (step (reading .res (.int 5)))).map (·.got) = some [(.res, 5)] ∧
    ({ stT1 with todo := [.read .tlen, .read .tlen], result := .text [0x41] } : State).todo =
      .read .tlen :: .read .tlen :: [] ∧
    portExists stT1.cfg .tlen = true ∧ portValue .tlen { stT1 with result := .text [0x41] } = some 1 := by decide

/-- States that meet the invariants: reset's (`LookBeforeReadIsExact`), and one that a step leaves. -/
theorem wit_EveryEventKeepsTheInvariants :
    Inv (sealedWith 1024 bufT1) ∧
    nextOf (step (doing (.write 0x500A0006) stT1)) = some { stT1 with result := .int 0x18C } :=
  ⟨inv_sealed _ _ (by decide) (by decide), by decide⟩

theorem wit_LookBeforeReadIsExact :
    Inv stT2 ∧ portUsable .status stT2 = true ∧ portUsable .res stT2 = false :=
  ⟨inv_sealed _ _ (by decide) (by decide), rfl, rfl⟩

/-- The least and the greatest capacity. -/
theorem wit_InvariantsHoldAfterReset : (⟨1⟩ : Config).Wf ∧ (⟨65535⟩ : Config).Wf := by decide

/-- Each code is reached by a command. -/
theorem wit_CodesByCommand :
    answerOf (.gett 3 7) stT2 = some (.eRange, .none) ∧ answerOf (.gets 0 48) stT1 = some (.eWidth, .none) ∧
    answerOf (.app 1 1) (loadingWith 1 [true]) = some (.eCapacity, .none) := by decide

/-- Each clause: any extraction while loading; 33 bits that run one bit off the end; an illegal word. -/
theorem wit_FaultPriority :
    State.reset.ph = .loading ∧
    (stT1.ph = .sealed ∧ 32 < (33 : BitVec 12).toNat ∧ stT1.n < (16 : BitVec 16).toNat + (33 : BitVec 12).toNat) ∧
    decode 0x2011FFFF = .illegal (.badCount 17) := by decide

/-- A faulting command and an illegal word. -/
theorem wit_FaultsLeaveNoTrace :
    nextOf (deliver 0x20010001 stT1) = some { stT1 with code := .eState } ∧ Code.eState ≠ Code.ok ∧
    nextOf (deliver 0x10000001 stT1) = some { stT1 with code := .eIllegal } ∧ Code.eIllegal ≠ Code.ok := by decide

/-- `NMAX = 40`: the store has nine cells; `APP 16` at `N = 24` fills the buffer. -/
theorem wit_AppendPathIsTheAppend :
    (List.replicate 9 (0xFF : Byte)).length = storeSize ⟨40⟩ ∧ 1 ≤ 16 ∧ 16 ≤ 16 ∧ 24 + 16 ≤ (⟨40⟩ : Config).nmax ∧
    0xA55A < 2 ^ 16 := by decide

/-- The widest window (offset 7, 32 bits), and one bit at the end. -/
theorem wit_ShiftAndMaskIsTheField : (1 ≤ 32 ∧ 32 ≤ 32 ∧ 7 + 32 ≤ 48) ∧ (1 ≤ 1 ∧ 47 + 1 ≤ 48) := by decide

theorem wit_SignStageIsSignExtension : (1 ≤ 32 ∧ 32 ≤ 32 ∧ 0xFFFFFFFF < 2 ^ 32) ∧ (1 ≤ 1 ∧ 1 < 2 ^ 1) := by decide

theorem wit_TextStageIsTheTrimmedText : 6 + 6 * 7 ≤ 48 := by decide

/-- A datapath of capacity 48 that holds the first 47 bits of T1 (its last bit, a 0, is padding), the cells after them
all ones or all zeros. -/
def dpT1 (pad : Byte) : DpState :=
  ⟨⟨48⟩, .sealed, 47, [0x15, 0x8C, 0xF0, 0x0F, 0xA5, 0x5A + pad % 2] ++ List.replicate 4 pad, .ok, .none⟩

theorem wit_DatapathRefinesTheBlock : (dpT1 0xFF).Wf ∧ (dpT1 0xFF).abstract.buf = bufT1.take 47 := by decide

theorem wit_PaddingIsUnobservable :
    (dpT1 0xFF).Wf ∧ (dpT1 0).Wf ∧ (dpT1 0).store ≠ (dpT1 0xFF).store ∧
    ∀ i, i < (dpT1 0xFF).n.toNat → storeBit (dpT1 0).store i = storeBit (dpT1 0xFF).store i := by decide

end Sys2Proof.Tests
end

section
/-! PROOFS of the statements of 00_scope.md: the value of a field (R8), and what one event is (R9, R33). -/

namespace Sys2Proof.Machine

/-! ## The value of a field -/

/-- The bits of a field are those of the buffer, counted from its offset (R8). -/
theorem bitAt_bits (m : Memory) (o : Nat) {w k : Nat} (h : k < w) : bitAt (bits m o w) k = bitAt m (o + k) := by
  simp [bitAt, bits, List.getD_eq_getElem?_getD, List.getElem?_take_of_lt h]

/-- The printed sum reads the buffer only inside the field. -/
theorem fieldSum_congr {m m' : Memory} {o o' w : Nat} (h : ∀ k < w, bitAt m (o + k) = bitAt m' (o' + k)) :
    fieldSum m o w = fieldSum m' o' w :=
  Finset.sum_congr rfl fun k hk => by rw [h k (Finset.mem_range.mp hk)]

/-- The printed sum, its most significant bit taken off: the lowest address has the highest weight (R8). -/
theorem fieldSum_succ (m : Memory) (o w : Nat) :
    fieldSum m o (w + 1) = (if bitAt m o then 2 ^ w else 0) + fieldSum m (o + 1) w := by
  have weight (k : Nat) : w + 1 - 1 - (k + 1) = w - 1 - k := by omega
  simp only [fieldSum, Finset.sum_range_succ', weight, Nat.add_assoc, Nat.add_comm 1]
  exact Nat.add_comm _ _

/-- The value of a bit string is the printed sum over the whole string. -/
theorem valueOf_eq_fieldSum (l : List Bool) : valueOf l = fieldSum l 0 l.length := by
  induction l with
  | nil => rfl
  | cons b bs ih =>
    have tail : fieldSum (b :: bs) (0 + 1) bs.length = fieldSum bs 0 bs.length :=
      fieldSum_congr fun k _ => by simp [bitAt, Nat.add_comm 1 k]
    rw [List.length_cons, fieldSum_succ, tail, ← ih]
    rfl

/-- R8: the model's read is the printed sum, for every field inside the buffer. -/
theorem memRead_eq_fieldSum {m : Memory} {o w : Nat} (h : o + w ≤ m.length) : memRead m o w = fieldSum m o w := by
  calc memRead m o w
      = fieldSum (bits m o w) 0 (bits m o w).length := valueOf_eq_fieldSum _
    _ = fieldSum (bits m o w) 0 w := by rw [bits_length h]
    _ = fieldSum m o w := fieldSum_congr fun k hk => by rw [Nat.zero_add, bitAt_bits m o hk]

/-- Settles O25: by induction on the field's bit string, the first bit the most significant; the bound is that of
the model's read. -/
theorem fieldValueIsTheSum : Obligations.FieldValueIsTheSum := by
  intro m o w h
  have sum := memRead_eq_fieldSum h
  exact ⟨sum, sum ▸ memRead_lt m o w⟩

/-! ## One event -/

/-- A legal word written to `CMD` runs its command (R28). -/
theorem deliver_of_command {cw : Word} {i : Instr} (h : decode cw = .command i) (s : State) :
    deliver cw s = exec i s := by
  simp [deliver, h]

/-- Settles O6: the step is the delivery of the word, and the delivery of a legal word is its command. -/
theorem stepRunsTheDecodedCommand : Obligations.StepRunsTheDecodedCommand := by
  intro s cw rest i htodo hdecode
  rw [step_write htodo, deliver_of_command hdecode]

/-- A step with an action left performs the first one (R262). -/
theorem step_of_todo {s : State} {a : HostAction} {rest : List HostAction} (h : s.todo = a :: rest) :
    step s = perform a { s with todo := rest } := by
  simp [step, nextEvent, h]

/-- R32, R33: a read of a `TXT` index at or above `TMAX` is no move of the host. -/
theorem readPort_txt_of_tmax_le {s : State} {i : Nat} (h : s.cfg.tmax ≤ i) :
    readPort (.txt i) s = .refused .notAHostMove := by
  have noPort : portExists s.cfg (.txt i) = false := decide_eq_false (Nat.not_lt.mpr h)
  simp [readPort, noPort]

/-- Settles O9: one clause per access that is no move, by what the step performs; and the idle step. -/
theorem nonMovesStopAndIdleStays : Obligations.NonMovesStopAndIdleStays := by
  refine ⟨?readTxt, ?readCmd, ?writePort, ?otherAccess, ?idle⟩
  case readTxt =>
    intro s i rest htodo hi
    rw [step_read htodo]
    exact readPort_txt_of_tmax_le hi
  case readCmd => exact fun s rest htodo => step_of_todo htodo
  case writePort => exact fun s p v rest htodo => step_of_todo htodo
  case otherAccess => exact fun s rest htodo => step_of_todo htodo
  case idle => exact fun s htodo => step_idle htodo

end Sys2Proof.Machine
end

section
/-! PROOFS of the statements of 10_state.md: what an event can do (R9, R220), who writes `PH` and `N` (R21, R22), the
status word and the ports (R29 to R34), and the invariants (R40). -/

namespace Sys2Proof.Machine

/-! ## What a command can do -/

theorem appFault_ne_ok (nmax : Nat) (ph : Phase) (n cnt : Nat) : appFault nmax ph n cnt ≠ some .ok := by
  unfold appFault
  split_ifs <;> simp

theorem intFault_ne_ok (ph : Phase) (n o w : Nat) : intFault ph n o w ≠ some .ok := by
  unfold intFault
  split_ifs <;> simp

theorem textFault_ne_ok (ph : Phase) (n o w : Nat) : textFault ph n o w ≠ some .ok := by
  unfold textFault
  split_ifs <;> simp

/-- The command `i` passes its checks in `s` and ends normally in `t` (R100 to R102, R120 to R122, R140). -/
inductive EndsNormally (s : State) : Instr → State → Prop
  | clr : EndsNormally s .clr ({ s with ph := .loading, buf := [] }.done .none)
  | app {cnt : BitVec 12} {data : BitVec 16} (loading : s.ph = .loading) (fits : s.n + cnt.toNat ≤ s.cfg.nmax) :
      EndsNormally s (.app cnt data)
        ({ s with buf := memWrite s.buf cnt.toNat (data.toNat % 2 ^ cnt.toNat) }.done .none)
  | sealBuf (loading : s.ph = .loading) : EndsNormally s .sealBuf ({ s with ph := .sealed }.done .none)
  | len (isSealed : s.ph = .sealed) : EndsNormally s .len (s.done (.int (zext32 s.n)))
  | getu {offset : BitVec 16} {width : BitVec 12} (isSealed : s.ph = .sealed) (nonempty : width.toNat ≠ 0)
      (inRange : offset.toNat + width.toNat ≤ s.n) (narrow : width.toNat ≤ Config.wmax) :
      EndsNormally s (.getu offset width) (s.done (.int (zext32 (memRead s.buf offset.toNat width.toNat))))
  | gets {offset : BitVec 16} {width : BitVec 12} (isSealed : s.ph = .sealed) (nonempty : width.toNat ≠ 0)
      (inRange : offset.toNat + width.toNat ≤ s.n) (narrow : width.toNat ≤ Config.wmax) :
      EndsNormally s (.gets offset width)
        (s.done (.int (sext32 (memRead s.buf offset.toNat width.toNat) width.toNat)))
  | gett {offset : BitVec 16} {width : BitVec 12} (isSealed : s.ph = .sealed) (nonempty : width.toNat ≠ 0)
      (inRange : offset.toNat + width.toNat ≤ s.n) (groups : width.toNat % 6 = 0) :
      EndsNormally s (.gett offset width) (s.done (.text (trim (rawText s.buf offset.toNat (width.toNat / 6)))))

/-- A command whose checks answer no code 0 ends in a fault, or passes them and ends in its effect `u` (R220). -/
theorem orFault_next {s t u : State} {f : Option Code} (notOk : f ≠ some .ok)
    (h : (.next (s.orFault f u) : Host.Outcome State Fault Refusal) = .next t) :
    (∃ e, e ≠ .ok ∧ t = s.raise e) ∨ (f = none ∧ t = u) := by
  injection h with h
  obtain ⟨e, rfl, raised⟩ | ⟨passed, effect⟩ := s.orFault_cases f u
  · exact .inl ⟨e, fun he => notOk (he ▸ rfl), h ▸ raised⟩
  · exact .inr ⟨passed, h ▸ effect⟩

/-- A command ends in a fault or normally (R220). -/
theorem exec_cases {i : Instr} {s t : State} (h : exec i s = .next t) :
    (∃ e, e ≠ .ok ∧ t = s.raise e) ∨ EndsNormally s i t := by
  cases i with
  | clr =>
    injection h with h
    exact .inr (h ▸ .clr)
  | app cnt data =>
    refine (orFault_next (appFault_ne_ok _ _ _ _) h).imp_right ?_
    rintro ⟨passed, rfl⟩
    obtain ⟨loading, fits⟩ := (appFault_none_iff _ _ _ _).mp passed
    exact .app loading fits
  | sealBuf =>
    refine (orFault_next (by split <;> simp) h).imp_right ?_
    rintro ⟨passed, rfl⟩
    exact .sealBuf (by simpa using passed)
  | len =>
    refine (orFault_next (by split <;> simp) h).imp_right ?_
    rintro ⟨passed, rfl⟩
    exact .len (by simpa using passed)
  | getu offset width =>
    refine (orFault_next (intFault_ne_ok _ _ _ _) h).imp_right ?_
    rintro ⟨passed, rfl⟩
    obtain ⟨isSealed, nonempty, inRange, narrow⟩ := (intFault_none_iff _ _ _ _).mp passed
    exact .getu isSealed nonempty inRange narrow
  | gets offset width =>
    refine (orFault_next (intFault_ne_ok _ _ _ _) h).imp_right ?_
    rintro ⟨passed, rfl⟩
    obtain ⟨isSealed, nonempty, inRange, narrow⟩ := (intFault_none_iff _ _ _ _).mp passed
    exact .gets isSealed nonempty inRange narrow
  | gett offset width =>
    refine (orFault_next (textFault_ne_ok _ _ _ _) h).imp_right ?_
    rintro ⟨passed, rfl⟩
    obtain ⟨isSealed, nonempty, inRange, groups⟩ := (textFault_none_iff _ _ _ _).mp passed
    exact .gett isSealed nonempty inRange groups

/-- A word ends in a fault, or it is a command that ends normally (R78, R220). -/
theorem deliver_cases {cw : Word} {s t : State} (h : deliver cw s = .next t) :
    (∃ e, e ≠ .ok ∧ t = s.raise e) ∨ ∃ i, decode cw = .command i ∧ EndsNormally s i t := by
  cases hd : decode cw with
  | command i =>
    rw [deliver_of_command hd] at h
    exact (exec_cases h).imp_right fun normal => ⟨i, rfl, normal⟩
  | illegal why =>
    have raised : deliver cw s = .next (s.raise .eIllegal) := by simp [deliver, hd]
    injection raised.symm.trans h with h
    exact .inl ⟨.eIllegal, by simp, h.symm⟩

section
variable {s t : State} {i : Instr}

theorem EndsNormally.cfg_eq (h : EndsNormally s i t) : t.cfg = s.cfg := by
  cases h <;> rfl

/-- Of the commands, only `CLR` and `SEAL` write `PH` (R21). -/
theorem EndsNormally.ph_cases (h : EndsNormally s i t) : t.ph = s.ph ∨ i = .clr ∨ i = .sealBuf := by
  cases h with
  | clr => exact .inr (.inl rfl)
  | sealBuf => exact .inr (.inr rfl)
  | app | len | getu | gets | gett => exact .inl rfl

/-- Of the commands, only `CLR` and `APP` write `N`; `APP` adds its count (R22). -/
theorem EndsNormally.n_cases (h : EndsNormally s i t) :
    t.n = s.n ∨ i = .clr ∨ ∃ cnt data, i = .app cnt data ∧ t.n = s.n + cnt.toNat := by
  cases h with
  | clr => exact .inr (.inl rfl)
  | app => exact .inr (.inr ⟨_, _, rfl, memWrite_length _ _ _⟩)
  | sealBuf | len | getu | gets | gett => exact .inl rfl

end

/-! ## What a port read can do -/

/-- What a port holds is a function of the block (R29 to R32). -/
theorem portValue_of_sameBlock {s t : State} (p : Port) (h : SameBlock s t) : portValue p t = portValue p s := by
  obtain ⟨-, ph, -, code, result⟩ := h
  cases p <;> simp [portValue, statusWord, ph, code, result]

/-- A read of a port that holds a value gives it to the host (R30 to R32). -/
theorem step_read_of_value {s : State} {p : Port} {v : Word} {rest : List HostAction}
    (htodo : s.todo = .read p :: rest) (hport : portExists s.cfg p = true) (hv : portValue p s = some v) :
    step s = .next { s with todo := rest, got := (p, v) :: s.got } := by
  have hv' : portValue p { s with todo := rest } = some v := hv ▸ portValue_of_sameBlock p ⟨rfl, rfl, rfl, rfl, rfl⟩
  rw [step_read htodo, readPort, if_pos hport, hv']

/-- A read of a port that holds no value gives the host the free value (R30, U1). -/
theorem step_read_of_noValue {s : State} {p : Port} {rest : List HostAction}
    (htodo : s.todo = .read p :: rest) (hport : portExists s.cfg p = true) (hv : portValue p s = none) :
    step s = .next { s with todo := rest, got := (p, Config.anyValue s.draws) :: s.got, draws := s.draws + 1 } := by
  have hv' : portValue p { s with todo := rest } = none := hv ▸ portValue_of_sameBlock p ⟨rfl, rfl, rfl, rfl, rfl⟩
  rw [step_read htodo, readPort, if_pos hport, hv']

/-- R34: a read leaves the block and the host's list as they are. -/
theorem readPort_sameBlock {p : Port} {s t : State} (h : readPort p s = .next t) :
    SameBlock s t ∧ t.todo = s.todo := by
  obtain ⟨-, v, -, read⟩ | ⟨-, -, read⟩ | ⟨-, read⟩ := readPort_cases p s <;> rw [read] at h <;> cases h
  · exact ⟨⟨rfl, rfl, rfl, rfl, rfl⟩, rfl⟩
  · exact ⟨⟨rfl, rfl, rfl, rfl, rfl⟩, rfl⟩

/-! ## What an event can do -/

/-- R9, R262: an event that answers a next state leaves the block as it is, resets it, ends a command in a fault, or
ends a command normally. -/
theorem step_cases {s t : State} (h : step s = .next t) :
    SameBlock s t ∨
    (∃ rest, s.todo = .reset :: rest ∧ t = { s with todo := rest }.resetBlock) ∨
    ∃ cw rest, s.todo = .write cw :: rest ∧
      ((∃ e, e ≠ .ok ∧ t = { s with todo := rest }.raise e) ∨
        ∃ i, decode cw = .command i ∧ EndsNormally { s with todo := rest } i t) := by
  cases htodo : s.todo with
  | nil =>
    injection (step_idle htodo).symm.trans h with h
    exact .inl (h ▸ ⟨rfl, rfl, rfl, rfl, rfl⟩)
  | cons a rest =>
    rw [step_of_todo htodo] at h
    cases a with
    | reset =>
      injection h with h
      exact .inr (.inl ⟨rest, rfl, h.symm⟩)
    | write cw => exact .inr (.inr ⟨cw, rest, rfl, deliver_cases h⟩)
    | read p => exact .inl (readPort_sameBlock h).1
    | readCmd | writePort | otherAccess => cases h

/-! ## The trimmed text -/

/-- R142: the loop of the trim stops behind a character that is no pad. -/
theorem isPad_of_trimLen_eq {ch : List Byte} {n k : Nat} (h : trimLen ch n = k + 1) : isPad (ch.getD k 0) = false := by
  induction n with
  | zero => cases h
  | succ n ih =>
    by_cases pad : isPad (ch.getD n 0) = true
    · exact ih (by simpa only [trimLen, if_pos pad] using h)
    · rw [trimLen, if_neg pad] at h
      obtain rfl : n = k := Nat.succ.inj h
      exact Bool.eq_false_iff.mpr pad

/-- R142: the trimmed string does not end in `@` or space. -/
theorem isPad_getLast_trim {ch : List Byte} {c : Byte} (h : (trim ch).getLast? = some c) : isPad c = false := by
  rcases hk : trimLen ch ch.length with _ | k
  · simp [trim, hk] at h
  · have hlt : k < ch.length := by have := trimLen_le ch ch.length; omega
    have last : ch.getD k 0 = c := by
      simpa [trim, hk, List.getLast?_take, List.getElem?_eq_getElem hlt] using h
    exact last ▸ isPad_of_trimLen_eq hk

/-- R141: the code of a 6-bit value is a character code. -/
theorem isCharCode_asc {c : Nat} (h : c < 64) : isCharCode (asc c) := by
  unfold asc
  split <;> simp only [isCharCode, BitVec.toNat_ofNat] <;> omega

/-- Every character of the untrimmed text is the code of a 6-bit value (R140). -/
theorem isCharCode_of_mem_rawText {m : Memory} {o n : Nat} {c : Byte} (h : c ∈ rawText m o n) : isCharCode c := by
  simp only [rawText, groups, List.mem_map] at h
  obtain ⟨_, ⟨j, -, rfl⟩, rfl⟩ := h
  exact isCharCode_asc (memRead_lt m (o + 6 * j) 6)

/-- R32, R149: the groups of a field inside the buffer fit in the cells of the text result file. -/
theorem groupCount_le_tmax {c : Config} {m : Memory} {o : Nat} {width : BitVec 12}
    (hm : Memory.wf c.nmax m = true) (inRange : o + width.toNat ≤ m.length) : width.toNat / 6 ≤ c.tmax := by
  have hcap := (Memory.wf_iff _ _).mp hm
  have hwidth := width.isLt
  rw [Config.tmax, le_min_iff]
  omega

/-- R40 item 4: a trimmed text of at most `cap` groups may stand in the text result file. -/
theorem textOk_trim_rawText {cap n : Nat} (m : Memory) (o : Nat) (h : n ≤ cap) : textOk cap (trim (rawText m o n)) := by
  refine ⟨?_, fun c hc => ?_, fun c hc => isPad_getLast_trim hc⟩
  · exact (trim_length_le _).trans ((rawText_length m o n).trans_le h)
  · exact isCharCode_of_mem_rawText (List.mem_of_mem_take hc)

/-! ## The invariants -/

/-- A state with `R = NONE` meets the invariants when its capacity and its buffer are well formed. -/
theorem Inv.of_result_none {s : State} (hc : s.cfg.Wf) (hm : Memory.wf s.cfg.nmax s.buf = true)
    (hr : s.result = .none) : Inv s where
  cfgWf := hc
  memWf := hm
  faultNone _ := hr
  resultSealed answer := absurd hr answer
  textWf _ text := by cases hr.symm.trans text

/-- A fault keeps the invariants (R222). -/
theorem Inv.raise {s : State} {e : Code} (h : Inv s) : Inv (s.raise e) := .of_result_none h.cfgWf h.memWf rfl

/-- A command that ends normally in phase `SEALED` keeps the invariants when its text result is one that may occur. -/
theorem Inv.done_of_sealed {s : State} {r : Result} (h : Inv s) (isSealed : s.ph = .sealed)
    (ht : ∀ t, r = .text t → textOk s.cfg.tmax t) : Inv (s.done r) where
  cfgWf := h.cfgWf
  memWf := h.memWf
  faultNone fault := absurd rfl fault
  resultSealed _ := ⟨rfl, isSealed⟩
  textWf := ht

/-- The invariants speak of the block only. -/
theorem Inv.of_sameBlock {s t : State} (same : SameBlock s t) (h : Inv s) : Inv t := by
  obtain ⟨cfg, ph, buf, code, result⟩ := same
  constructor
  · exact cfg ▸ h.cfgWf
  · exact cfg ▸ buf ▸ h.memWf
  · exact code ▸ result ▸ h.faultNone
  · exact code ▸ ph ▸ result ▸ h.resultSealed
  · exact cfg ▸ result ▸ h.textWf

/-- R40, R101, R140: a command that ends normally keeps the invariants. -/
theorem EndsNormally.inv {s t : State} {i : Instr} (normal : EndsNormally s i t) (h : Inv s) : Inv t := by
  cases normal with
  | clr => exact .of_result_none h.cfgWf (Memory.wf_nil _) rfl
  | app _ fits => exact .of_result_none h.cfgWf (Memory.wf_memWrite _ fits) rfl
  | sealBuf => exact .of_result_none h.cfgWf h.memWf rfl
  | len isSealed | getu isSealed | gets isSealed => exact h.done_of_sealed isSealed fun _ text => by cases text
  | gett isSealed _ inRange =>
    refine h.done_of_sealed isSealed fun _ text => ?_
    injection text with text
    exact text ▸ textOk_trim_rawText _ _ (groupCount_le_tmax h.memWf inRange)

/-- Settles O48: by the four things an event can do. The append fits by its capacity check; the text fits because its
field lies in the buffer and its width in 12 bits. -/
theorem everyEventKeepsTheInvariants : Obligations.EveryEventKeepsTheInvariants := by
  intro s t hs hstep
  have keptBesideTodo (rest : List HostAction) : Inv { s with todo := rest } :=
    .of_sameBlock (s := s) ⟨rfl, rfl, rfl, rfl, rfl⟩ hs
  obtain same | ⟨rest, -, rfl⟩ | ⟨cw, rest, -, ⟨e, -, rfl⟩ | ⟨i, -, normal⟩⟩ := step_cases hstep
  · exact hs.of_sameBlock same
  · exact .of_result_none hs.cfgWf (Memory.wf_nil _) rfl
  · exact (keptBesideTodo rest).raise
  · exact normal.inv (keptBesideTodo rest)

/-- R38: just reset, every field of `STATUS` is 0. -/
theorem statusWord_of_fresh {s : State} (h : Fresh s) : statusWord s = 0 := by
  obtain ⟨ph, -, code, result⟩ := h
  rw [statusWord, ph, code, result]
  decide

/-- Settles O47: the reset state has an empty buffer and `R = NONE`. -/
theorem invariantsHoldAfterReset : Obligations.InvariantsHoldAfterReset := by
  have afterReset (c : Config) (hc : c.Wf) : Inv (State.resetOf c) := .of_result_none hc (State.reset_mem_wf c) rfl
  have suggestedWf : Config.suggested.Wf := by decide
  have fresh (c : Config) : Fresh (State.resetOf c) := ⟨rfl, rfl, rfl, rfl⟩
  exact ⟨fun c hc => ⟨afterReset c hc, fresh c, statusWord_of_fresh (fresh c)⟩, afterReset _ suggestedWf⟩

/-! ## Who writes `PH` and `N` -/

/-- Settles O34: an event that is no reset, and no command that ends normally, leaves `PH`, `N` and the capacity; of
the commands, the named ones write them. -/
theorem onlyNamedCommandsWritePhaseAndLength : Obligations.OnlyNamedCommandsWritePhaseAndLength := by
  intro s t hstep
  obtain ⟨cfg, ph, buf, -⟩ | ⟨rest, htodo, rfl⟩ | ⟨cw, rest, htodo, ⟨e, -, rfl⟩ | ⟨i, hd, normal⟩⟩ :=
    step_cases hstep
  · exact ⟨cfg, absurd ph, absurd (congrArg List.length buf)⟩
  · exact ⟨rfl, fun _ => ⟨.reset, rest, htodo, .inl rfl⟩, fun _ => ⟨.reset, rest, htodo, .inl rfl⟩⟩
  · exact ⟨rfl, absurd rfl, absurd rfl⟩
  · refine ⟨normal.cfg_eq, fun hph => ⟨.write cw, rest, htodo, .inr ⟨cw, rfl, ?phase⟩⟩,
      fun hn => ⟨.write cw, rest, htodo, .inr ⟨cw, rfl, ?length⟩⟩⟩
    case phase =>
      obtain same | rfl | rfl := normal.ph_cases
      · exact absurd same hph
      · exact .inl hd
      · exact .inr hd
    case length =>
      obtain same | rfl | ⟨cnt, data, rfl, grown⟩ := normal.n_cases
      · exact absurd same hn
      · exact .inl hd
      · exact .inr ⟨cnt, data, hd, grown⟩

/-! ## The status word and the ports -/

/-- Settles O43: field by field, `STATUS` is the concatenation of zeros, `PH`, `KIND` and `CODE`. -/
theorem statusWordLayout : Obligations.StatusWordLayout := by
  intro s
  refine ⟨?code, ?kind, ?phase, ?zeros⟩
  case code =>
    have field : (statusWord s).extractLsb' 0 4 = codeBits s.code := BitVec.extractLsb'_append_eq_right
    rw [field]
    cases s.code <;> rfl
  case kind =>
    have field : (statusWord s).extractLsb' 4 2 = kindBits s.result := by
      rw [statusWord, BitVec.extractLsb'_append_eq_of_le (by decide)]
      exact BitVec.extractLsb'_append_eq_right
    rw [field]
    cases s.result <;> rfl
  case phase =>
    have field : (statusWord s).getLsbD 6 = (phaseBit s.ph).getLsbD 0 := by
      simp only [statusWord, BitVec.getLsbD_append]
      rfl
    rw [field]
    cases s.ph <;> rfl
  case zeros =>
    rw [statusWord, BitVec.extractLsb'_append_eq_of_le (by decide), BitVec.extractLsb'_append_eq_of_le (by decide)]
    exact BitVec.extractLsb'_append_eq_left

section
variable {s : State}

theorem portValue_res_of_int {v : Word} (h : s.result = .int v) : portValue .res s = some v := by
  simp [portValue, h]

theorem portValue_res_of_not_int (h : ∀ v, s.result ≠ .int v) : portValue .res s = none := by
  cases hr : s.result with
  | none | text => simp [portValue, hr]
  | int v => exact absurd hr (h v)

theorem portValue_tlen_of_text {t : List Byte} (h : s.result = .text t) :
    portValue .tlen s = some (BitVec.ofNat 32 t.length) := by
  simp [portValue, h]

theorem portValue_tlen_of_not_text (h : ∀ t, s.result ≠ .text t) : portValue .tlen s = none := by
  cases hr : s.result with
  | none | int => simp [portValue, hr]
  | text t => exact absurd hr (h t)

theorem portValue_txt_of_lt {i : Nat} {t : List Byte} (h : s.result = .text t) (hi : i < t.length) :
    portValue (.txt i) s = some (t[i].setWidth 32) := by
  simp [portValue, h, hi]

theorem portValue_txt_of_no_char {i : Nat} (h : ∀ t, s.result = .text t → t.length ≤ i) :
    portValue (.txt i) s = none := by
  cases hr : s.result with
  | none | int => simp [portValue, hr]
  | text t => simp [portValue, hr, h t hr]

end

/-- Settles O44: each clause is a read of a port that holds the value, or holds none. -/
theorem portReadsGiveTheResult : Obligations.PortReadsGiveTheResult := by
  intro s p rest htodo
  have isPort {i : Nat} (hi : i < min 682 (s.cfg.nmax / 6)) : portExists s.cfg (.txt i) = true := decide_eq_true hi
  refine ⟨?status, ?res, ?noInt, ?tlen, ?noText, ?txt, ?noChar⟩
  case status =>
    rintro rfl
    exact step_read_of_value htodo rfl rfl
  case res =>
    rintro v rfl hr
    exact step_read_of_value htodo rfl (portValue_res_of_int hr)
  case noInt =>
    rintro rfl hr
    exact step_read_of_noValue htodo rfl (portValue_res_of_not_int hr)
  case tlen =>
    rintro t rfl hr
    exact step_read_of_value htodo rfl (portValue_tlen_of_text hr)
  case noText =>
    rintro rfl hr
    exact step_read_of_noValue htodo rfl (portValue_tlen_of_not_text hr)
  case txt =>
    rintro i t h rfl hi hr
    exact step_read_of_value htodo (isPort hi) (portValue_txt_of_lt hr h)
  case noChar =>
    rintro i rfl hi hr
    exact step_read_of_noValue htodo (isPort hi) (portValue_txt_of_no_char hr)

/-- A run of `k + 1` events is the first one and then a run of `k`. -/
theorem runFor_succ_of_step {s t : State} (k : Nat) (h : step s = .next t) : runFor (k + 1) s = runFor k t := by
  simp [runFor, h]

/-- Settles O45: a read changes nothing the port's value depends on, so the second read finds the value again. -/
theorem portReadsHaveNoSideEffect : Obligations.PortReadsHaveNoSideEffect := by
  refine ⟨?noSideEffect, ?twoReads⟩
  case noSideEffect =>
    intro s t p rest htodo hstep
    rw [step_read htodo] at hstep
    obtain ⟨same, todo⟩ := readPort_sameBlock hstep
    exact ⟨same, todo, portValue_of_sameBlock p same⟩
  case twoReads =>
    intro s p v rest htodo hport hv
    have again : portValue p { s with todo := .read p :: rest, got := (p, v) :: s.got } = some v :=
      hv ▸ portValue_of_sameBlock p ⟨rfl, rfl, rfl, rfl, rfl⟩
    rw [runFor_succ_of_step 1 (step_read_of_value htodo hport hv)]
    exact runFor_succ_of_step 0 (step_read_of_value rfl hport again)

end Sys2Proof.Machine
end

section
/-! PROOFS of the statements of 20_memory.md: fields of mixed width (R54), what an append reads back (R53), extractions
that only read (R60) and writes that only append (R61). -/

namespace Sys2Proof.Machine

/-! ## Fields of mixed width -/

/-- A field of `w1 + w2` bits is the field of its first `w1` bits followed by that of the other `w2` (R54). -/
theorem bits_add (m : Memory) (o w1 w2 : Nat) : bits m o (w1 + w2) = bits m o w1 ++ bits m (o + w1) w2 := by
  simp [bits, List.take_add, List.drop_drop]

/-- Settles O29: the value of two bit strings in a row, the second `w2` bits long. -/
theorem concatenationLaw : Obligations.ConcatenationLaw := by
  intro m o w1 w2 _ _ h
  rw [memRead, bits_add, valueOf_append, bits_length h]
  rfl

/-! ## What an append reads back -/

/-- R8: the bits written for a number have that number as their value, as far as they hold it. -/
theorem valueOf_bitsOf (n v : Nat) : valueOf (bitsOf n v) = v % 2 ^ n := by
  induction n with
  | zero => simp [bitsOf, valueOf, Nat.mod_one]
  | succ n ih =>
    rw [Nat.mod_pow_succ, ← Nat.toNat_testBit, bitsOf, valueOf, bitsOf_length, ih, Nat.add_comm]
    cases v.testBit n <;> simp

/-- R8, R53: the field at the old end is what was appended there. -/
theorem memRead_memWrite_end (m : Memory) (n v : Nat) : memRead (memWrite m n v) m.length n = v % 2 ^ n := by
  have field : bits (memWrite m n v) m.length n = bitsOf n v := by simp [bits, memWrite, List.take_of_length_le]
  rw [memRead, field, valueOf_bitsOf]

/-- R53: an append leaves every bit before the old end. -/
theorem bitAt_memWrite_of_lt {m : Memory} {i : Nat} (n v : Nat) (h : i < m.length) :
    bitAt (memWrite m n v) i = bitAt m i :=
  List.getD_append m (bitsOf n v) false i h

/-- A command that passes its checks and ends normally in `t` is one whose answer is `t` (R220). -/
theorem EndsNormally.exec_eq {s t : State} {i : Instr} (h : EndsNormally s i t) : exec i s = .next t := by
  cases h with
  | clr => rfl
  | app loading fits => rw [exec, execApp, (appFault_none_iff _ _ _ _).mpr ⟨loading, fits⟩, State.orFault_none]
  | sealBuf loading => simp [exec, execSeal, loading]
  | len isSealed => simp [exec, execLen, isSealed]
  | getu isSealed nonempty inRange narrow =>
    rw [exec, execGetu, extractInt, (intFault_none_iff _ _ _ _).mpr ⟨isSealed, nonempty, inRange, narrow⟩,
      State.orFault_none]
  | gets isSealed nonempty inRange narrow =>
    rw [exec, execGets, extractInt, (intFault_none_iff _ _ _ _).mpr ⟨isSealed, nonempty, inRange, narrow⟩,
      State.orFault_none]
  | gett isSealed nonempty inRange groups =>
    rw [exec, execGett, (textFault_none_iff _ _ _ _).mpr ⟨isSealed, nonempty, inRange, groups⟩, State.orFault_none]

/-- Settles O30: the three commands end normally, and the field read is the field appended. The capacity keeps the old
`N` inside the 16 bits of an offset. -/
theorem appendedBitsReadBack : Obligations.AppendedBitsReadBack := by
  intro s cnt data hcfg loading positive atMost16 fits
  have offset : (BitVec.ofNat 16 s.n).toNat = s.n := by
    rw [BitVec.toNat_ofNat]
    exact Nat.mod_eq_of_lt (by have := hcfg.2; omega)
  have narrow : cnt.toNat ≤ Config.wmax := atMost16.trans (by decide)
  have inRange (v : Nat) : (BitVec.ofNat 16 s.n).toNat + cnt.toNat ≤ (memWrite s.buf cnt.toNat v).length := by
    rw [offset, memWrite_length, State.n]
  refine ⟨_, _, _, EndsNormally.exec_eq (.app loading fits), EndsNormally.exec_eq (.sealBuf loading),
    EndsNormally.exec_eq (.getu rfl (by omega) (inRange _) narrow), ?appended, ?earlier⟩
  case appended =>
    rw [offset]
    exact congrArg (Result.int ∘ zext32) ((memRead_memWrite_end _ _ _).trans (Nat.mod_mod _ _))
  case earlier => exact fun i hi => bitAt_memWrite_of_lt _ _ hi

/-! ## Extractions only read -/

/-- No command reads `CODE` or `R`: each one overwrites both (R220, R222). -/
theorem exec_congr_code_result (i : Instr) (s : State) (c : Code) (r : Result) :
    exec i { s with code := c, result := r } = exec i s := by
  cases i with
  | clr | app | sealBuf | len | getu | gets | gett => rfl

/-- A command whose effect is a result writes `CODE` and `R` only, whether it ends in a fault or not (R60, R220). -/
theorem orFault_done_frame (s : State) (f : Option Code) (r : Result) :
    ∃ c r', s.orFault f (s.done r) = { s with code := c, result := r' } := by
  obtain ⟨e, -, raised⟩ | ⟨-, ended⟩ := s.orFault_cases f (s.done r)
  · exact ⟨e, .none, raised⟩
  · exact ⟨.ok, r, ended⟩

/-- R60: an extraction completes and writes `CODE` and `R` only. -/
theorem exec_extraction_frame {i : Instr} (s : State) (h : ∃ o w, i = .getu o w ∨ i = .gets o w ∨ i = .gett o w) :
    ∃ c r, exec i s = .next { s with code := c, result := r } := by
  obtain ⟨o, w, rfl | rfl | rfl⟩ := h
  all_goals
    obtain ⟨c, r, frame⟩ := orFault_done_frame s _ _
    exact ⟨c, r, congrArg _ frame⟩

/-- Settles O32: an extraction writes `CODE` and `R` only, and no command, itself included, reads either. -/
theorem extractionsReadOnlyAndIdempotent : Obligations.ExtractionsReadOnlyAndIdempotent := by
  intro i j s extraction
  obtain ⟨c, r, answer⟩ := exec_extraction_frame s extraction
  exact ⟨_, answer, rfl, (exec_congr_code_result i s c r).trans answer, exec_congr_code_result j s c r⟩

/-! ## Writes only append -/

/-- R73, R75: the command of an opcode is one of the machine when, for `APP`, the count is legal. -/
theorem wf_commandOf {op : BitVec 4} {a : BitVec 12} {b : BitVec 16} (h : op.toNat = 2 → cntLegal a = true) :
    (commandOf op a b).wf = true := by
  unfold commandOf
  split
  case h_2 isApp => exact h isApp
  all_goals rfl

/-- R77, R80: what a word decodes to is a command of the machine. -/
theorem wf_of_decode {cw : Word} {i : Instr} (h : decode cw = .command i) : i.wf = true := by
  unfold decode at h
  split at h
  · cases h
  split at h
  · cases h
  split at h
  · cases h
  next countOk =>
    injection h with h
    exact h ▸ wf_commandOf fun isApp => by simpa [isApp] using countOk

/-- R73: the count of an `APP` that a word decodes to is 1 to 16. -/
theorem cnt_bounds_of_decode_app {cw : Word} {cnt : BitVec 12} {data : BitVec 16}
    (h : decode cw = .command (.app cnt data)) : 1 ≤ cnt.toNat ∧ cnt.toNat ≤ 16 := by
  have legal : cntLegal cnt = true := wf_of_decode h
  obtain ⟨positive, atMost16⟩ := Bool.and_eq_true_iff.mp legal
  exact ⟨of_decide_eq_true positive, of_decide_eq_true atMost16⟩

/-- Of the commands, only `CLR` and `APP` write the buffer; `APP` appends its bits while loading (R61). -/
theorem EndsNormally.buf_cases {s t : State} {i : Instr} (h : EndsNormally s i t) :
    t.buf = s.buf ∨ t.buf = [] ∨
    ∃ cnt data, i = .app cnt data ∧ s.ph = .loading ∧
      t.buf = memWrite s.buf cnt.toNat (data.toNat % 2 ^ cnt.toNat) := by
  cases h with
  | clr => exact .inr (.inl rfl)
  | app loading => exact .inr (.inr ⟨_, _, rfl, loading, rfl⟩)
  | sealBuf | len | getu | gets | gett => exact .inl rfl

/-- Settles O33: by what an event can do; the decoder admits only an `APP` of 1 to 16 bits. -/
theorem writesAreAppendOnly : Obligations.WritesAreAppendOnly := by
  intro s t hstep
  obtain ⟨-, -, buf, -⟩ | ⟨rest, -, rfl⟩ | ⟨cw, rest, -, ⟨e, -, rfl⟩ | ⟨i, hd, normal⟩⟩ := step_cases hstep
  · exact .inl buf
  · exact .inr (.inl rfl)
  · exact .inl rfl
  · obtain same | empty | ⟨cnt, data, rfl, loading, appended⟩ := normal.buf_cases
    · exact .inl same
    · exact .inr (.inl empty)
    · obtain ⟨positive, atMost16⟩ := cnt_bounds_of_decode_app hd
      exact .inr (.inr ⟨loading, _, by simpa using positive, by simpa using atMost16, appended⟩)

end Sys2Proof.Machine
end

section
/-! PROOFS of the statements of 30_encoding.md: the fields of a word (R71), which words are illegal (R77), what a word
decodes to, the encoder as its inverse (R86), the opcode map (R75), and the assembler's words (R83). -/

namespace Sys2Proof

open Laws

/-! ## The three fields of a word -/

theorem opField_toNat (cw : Word) : (opField cw).toNat = cw.toNat / 2 ^ 28 := by
  simp only [opField, BitVec.extractLsb'_toNat, Nat.shiftRight_eq_div_pow]
  omega

theorem aField_toNat (cw : Word) : (aField cw).toNat = cw.toNat / 2 ^ 16 % 2 ^ 12 := by
  simp only [aField, BitVec.extractLsb'_toNat, Nat.shiftRight_eq_div_pow]

theorem bField_toNat (cw : Word) : (bField cw).toNat = cw.toNat % 2 ^ 16 := by
  simp only [bField, BitVec.extractLsb'_toNat, Nat.shiftRight_zero]

/-- R71: a word's number is that of its fields, each at its place. -/
theorem packWord_toNat (op : BitVec 4) (a : BitVec 12) (b : BitVec 16) :
    (packWord op a b).toNat = op.toNat * 2 ^ 28 + a.toNat * 2 ^ 16 + b.toNat := by
  rw [packWord, BitVec.toNat_append, ← Nat.shiftLeft_add_eq_or_of_lt b.isLt, BitVec.toNat_append,
    ← Nat.shiftLeft_add_eq_or_of_lt a.isLt, Nat.shiftLeft_eq, Nat.shiftLeft_eq]
  ring

/-- R71: the three fields are the whole word. -/
theorem packWord_fields (cw : Word) : packWord (opField cw) (aField cw) (bField cw) = cw := by
  apply BitVec.eq_of_toNat_eq
  rw [packWord_toNat, opField_toNat, aField_toNat, bField_toNat]
  omega

/-- A mask of three fields masks each field by its own. -/
theorem packWord_and (op op' : BitVec 4) (a a' : BitVec 12) (b b' : BitVec 16) :
    packWord op a b &&& packWord op' a' b' = packWord (op &&& op') (a &&& a') (b &&& b') :=
  BitVec.and_append.trans (congrArg (· ++ (b &&& b')) BitVec.and_append)

theorem packWord_inj {op op' : BitVec 4} {a a' : BitVec 12} {b b' : BitVec 16} :
    packWord op a b = packWord op' a' b' ↔ op = op' ∧ a = a' ∧ b = b' := by
  constructor
  · intro same
    have field {n : Nat} (f : Word → BitVec n) := congrArg f same
    exact ⟨by simpa only [opField_packWord] using field opField, by simpa only [aField_packWord] using field aField,
      by simpa only [bField_packWord] using field bField⟩
  · rintro ⟨rfl, rfl, rfl⟩
    rfl

/-! ## Which words are illegal, and what the others decode to -/

theorem opReserved_iff (op : BitVec 4) : opReserved op = true ↔ op.toNat = 0 ∨ 8 ≤ op.toNat := by
  simp [opReserved]

theorem opFormatZ_iff (op : BitVec 4) : opFormatZ op = true ↔ op.toNat = 1 ∨ op.toNat = 3 ∨ op.toNat = 4 := by
  simp [opFormatZ, or_assoc]

theorem cntLegal_iff (cnt : BitVec 12) : cntLegal cnt = true ↔ 1 ≤ cnt.toNat ∧ cnt.toNat ≤ 16 := by
  rw [cntLegal, Bool.and_eq_true, decide_eq_true_eq, decide_eq_true_eq, Config.appMax]

/-- R77, R224: the fields, as numbers, of an illegal word. -/
def IllegalFields (op a b : Nat) : Prop :=
  op = 0 ∨ 8 ≤ op ∨ ((op = 1 ∨ op = 3 ∨ op = 4) ∧ (a ≠ 0 ∨ b ≠ 0)) ∨ (op = 2 ∧ (a = 0 ∨ 16 < a))

/-- The three checks of the decoder are those of R77. -/
theorem illegalFields_iff (op : BitVec 4) (a : BitVec 12) (b : BitVec 16) :
    IllegalFields op.toNat a.toNat b.toNat ↔
      opReserved op = true ∨ (opFormatZ op && (decide (a ≠ 0) || decide (b ≠ 0))) = true ∨
      (decide (op.toNat = 2) && !cntLegal a) = true := by
  have a_ne : a ≠ 0 ↔ a.toNat ≠ 0 := BitVec.toNat_ne_iff_ne.symm
  have b_ne : b ≠ 0 ↔ b.toNat ≠ 0 := BitVec.toNat_ne_iff_ne.symm
  simp only [IllegalFields, Bool.and_eq_true, Bool.or_eq_true, decide_eq_true_eq, Bool.not_eq_true',
    ← Bool.not_eq_true, opReserved_iff, opFormatZ_iff, cntLegal_iff, a_ne, b_ne]
  omega

/-- The fields of a legal word: an opcode of a command, no operand bits in format Z, a legal count in an `APP`. -/
theorem not_illegalFields_iff (op : BitVec 4) (a : BitVec 12) (b : BitVec 16) :
    ¬ IllegalFields op.toNat a.toNat b.toNat ↔
      opReserved op = false ∧ (opFormatZ op = true → a = 0 ∧ b = 0) ∧ (op.toNat = 2 → cntLegal a = true) := by
  rw [illegalFields_iff]
  simp

/-- R77: a word is illegal by its fields, or it decodes to the command of its fields. -/
theorem decode_cases (cw : Word) :
    (IllegalFields (opField cw).toNat (aField cw).toNat (bField cw).toNat ∧ ∃ why, decode cw = .illegal why) ∨
    (¬ IllegalFields (opField cw).toNat (aField cw).toNat (bField cw).toNat ∧
      decode cw = .command (commandOf (opField cw) (aField cw) (bField cw))) := by
  rw [illegalFields_iff]
  unfold decode
  split
  case isTrue reserved => exact .inl ⟨.inl reserved, _, rfl⟩
  split
  case isTrue badBits => exact .inl ⟨.inr (.inl badBits), _, rfl⟩
  split
  case isTrue badCount => exact .inl ⟨.inr (.inr badCount), _, rfl⟩
  next notReserved goodBits goodCount =>
    exact .inr ⟨not_or.mpr ⟨notReserved, not_or.mpr ⟨goodBits, goodCount⟩⟩, rfl⟩

theorem decode_illegal_iff (cw : Word) :
    (∃ why, decode cw = .illegal why) ↔
      IllegalFields (opField cw).toNat (aField cw).toNat (bField cw).toNat := by
  obtain ⟨illegal, why, dec⟩ | ⟨legal, dec⟩ := decode_cases cw <;> simp [*]

theorem decode_command_iff (cw : Word) (i : Instr) :
    decode cw = .command i ↔
      ¬ IllegalFields (opField cw).toNat (aField cw).toNat (bField cw).toNat ∧
      i = commandOf (opField cw) (aField cw) (bField cw) := by
  obtain ⟨illegal, why, dec⟩ | ⟨legal, dec⟩ := decode_cases cw
  · simp [illegal, dec]
  · simp [legal, dec, eq_comm]

/-- R75, R76: the command of three fields, chosen by the opcode's number. -/
theorem commandOf_eq_ite (op : BitVec 4) (a : BitVec 12) (b : BitVec 16) :
    commandOf op a b =
      if op.toNat = 1 then .clr
      else if op.toNat = 2 then .app a b
      else if op.toNat = 3 then .sealBuf
      else if op.toNat = 4 then .len
      else if op.toNat = 5 then .getu b a
      else if op.toNat = 6 then .gets b a
      else .gett b a := by
  unfold commandOf
  split <;> simp_all

/-! ## A command's own word -/

/-- R76: the word whose operand fields are the command's operands as they are, an `APP`'s ignored bits too. -/
def Instr.rawWord : Instr → Word
  | .clr => packWord 0x1 0 0
  | .app cnt data => packWord 0x2 cnt data
  | .sealBuf => packWord 0x3 0 0
  | .len => packWord 0x4 0 0
  | .getu offset width => packWord 0x5 width offset
  | .gets offset width => packWord 0x6 width offset
  | .gett offset width => packWord 0x7 width offset

/-- R86: the encoder spells a command as its canonical form. -/
theorem encode_eq_rawWord_canon (i : Instr) : encode i = i.canon.rawWord := by
  cases i <;> rfl

/-- The opcodes that are not reserved (R75). -/
theorem opcode_cases {op : BitVec 4} (h : opReserved op = false) :
    op = 1 ∨ op = 2 ∨ op = 3 ∨ op = 4 ∨ op = 5 ∨ op = 6 ∨ op = 7 := by
  revert op
  decide

theorem opcode_commandOf {op : BitVec 4} (h : opReserved op = false) (a : BitVec 12) (b : BitVec 16) :
    (commandOf op a b).opcode = op := by
  obtain rfl | rfl | rfl | rfl | rfl | rfl | rfl := opcode_cases h
  all_goals rfl

theorem rawWord_commandOf {op : BitVec 4} {a : BitVec 12} {b : BitVec 16}
    (legal : ¬ IllegalFields op.toNat a.toNat b.toNat) : (commandOf op a b).rawWord = packWord op a b := by
  obtain ⟨notReserved, noOperands, -⟩ := (not_illegalFields_iff op a b).mp legal
  obtain rfl | rfl | rfl | rfl | rfl | rfl | rfl := opcode_cases notReserved
  case inl | inr.inr.inl | inr.inr.inr.inl =>
    obtain ⟨rfl, rfl⟩ := noOperands rfl
    rfl
  all_goals rfl

theorem decode_rawWord {i : Instr} (h : i.wf = true) : decode i.rawWord = .command i := by
  rw [decode_command_iff, not_illegalFields_iff]
  cases i with
  | clr | sealBuf | len =>
    rw [Instr.rawWord, opField_packWord, aField_packWord, bField_packWord]
    exact ⟨⟨rfl, fun _ => ⟨rfl, rfl⟩, nofun⟩, rfl⟩
  | app =>
    rw [Instr.rawWord, opField_packWord, aField_packWord, bField_packWord]
    exact ⟨⟨rfl, nofun, fun _ => h⟩, rfl⟩
  | getu | gets | gett =>
    rw [Instr.rawWord, opField_packWord, aField_packWord, bField_packWord]
    exact ⟨⟨rfl, nofun, nofun⟩, rfl⟩

/-- The decoder and a command's own word are inverse to each other. -/
theorem decode_eq_command_iff_rawWord (cw : Word) (i : Instr) :
    decode cw = .command i ↔ i.wf = true ∧ i.rawWord = cw := by
  constructor
  · intro dec
    obtain ⟨legal, rfl⟩ := (decode_command_iff cw i).mp dec
    exact ⟨Machine.wf_of_decode dec, (rawWord_commandOf legal).trans (packWord_fields cw)⟩
  · rintro ⟨wf, rfl⟩
    exact decode_rawWord wf

/-! ## Canonical spelling (R80, R83) -/

theorem keepData_toNat (cnt : BitVec 12) (data : BitVec 16) :
    (keepData cnt data).toNat = data.toNat % 2 ^ cnt.toNat := by
  rw [keepData, BitVec.toNat_ofNat]
  exact Nat.mod_eq_of_lt ((Nat.mod_le _ _).trans_lt data.isLt)

theorem keepData_idem (cnt : BitVec 12) (data : BitVec 16) : keepData cnt (keepData cnt data) = keepData cnt data := by
  apply BitVec.eq_of_toNat_eq
  simp only [keepData_toNat, Nat.mod_mod]

@[simp] theorem Instr.canon_canon (i : Instr) : i.canon.canon = i.canon := by
  cases i with
  | app cnt data => exact congrArg (Instr.app cnt) (keepData_idem cnt data)
  | clr | sealBuf | len | getu | gets | gett => rfl

@[simp] theorem Instr.wf_canon (i : Instr) : i.canon.wf = i.wf := by
  cases i <;> rfl

theorem Instr.canonical_iff (i : Instr) : i.canonical = true ↔ i.canon = i := decide_eq_true_iff

/-- R86: the word of a well-formed command decodes to its canonical spelling. -/
theorem decode_encode {i : Instr} (h : i.wf = true) : decode (encode i) = .command i.canon := by
  rw [encode_eq_rawWord_canon]
  exact decode_rawWord (i.wf_canon.trans h)

end Sys2Proof

namespace Sys2Proof.Machine

open Laws

/-! ## The ignored bits of an `APP` (R80) -/

/-- R80: an `APP` reads of its data only `data mod 2^cnt`. -/
theorem exec_app_congr (cnt : BitVec 12) {d1 d2 : BitVec 16} (s : State)
    (h : d1.toNat % 2 ^ cnt.toNat = d2.toNat % 2 ^ cnt.toNat) : exec (.app cnt d1) s = exec (.app cnt d2) s := by
  simp only [exec, execApp, h]

/-- Settles O12: the low bits are the value that is appended. -/
theorem appIgnoresTheUpperDataBits : Obligations.AppIgnoresTheUpperDataBits := by
  intro s cnt d1 d2 same
  refine exec_app_congr cnt s (Nat.eq_of_testBit_eq fun j => ?_)
  rw [Nat.testBit_mod_two_pow, Nat.testBit_mod_two_pow]
  by_cases hj : j < cnt.toNat
  · exact congrArg (_ && ·) (same j hj)
  · simp [hj]

/-- A command and its canonical spelling do the same (R80). -/
theorem exec_canon (i : Instr) (s : State) : exec i.canon s = exec i s := by
  cases i with
  | app cnt data => exact exec_app_congr cnt s (by rw [keepData_toNat, Nat.mod_mod])
  | clr | sealBuf | len | getu | gets | gett => rfl

/-! ## Decode and encode -/

/-- Settles O3: a word decodes to `i` exactly when it is the own word of the well-formed `i`, and the encoding of `i` is
the own word of its canonical spelling. -/
theorem decodeEncodeAgree : Obligations.DecodeEncodeAgree := by
  refine ⟨?decodeOfEncode, ?encodeOfDecode, ?illegal⟩
  case decodeOfEncode =>
    intro i wf canonical
    rw [decode_encode wf, (Instr.canonical_iff i).mp canonical]
  case encodeOfDecode =>
    intro cw i dec
    obtain ⟨wf, word⟩ := (decode_eq_command_iff_rawWord cw i).mp dec
    refine ⟨wf, ?sameWord, ?canonical, ?sameCode, decode_encode wf, exec_canon i⟩
    case sameWord =>
      intro canonical
      rw [encode_eq_rawWord_canon, (Instr.canonical_iff i).mp canonical, word]
    case canonical => rw [Instr.canonical_iff, Instr.canon_canon]
    case sameCode => rw [encode_eq_rawWord_canon, encode_eq_rawWord_canon, Instr.canon_canon]
  case illegal =>
    rintro cw why dec i wf rfl
    cases (decode_encode wf).symm.trans dec

/-- Settles O1: the decoder's cases, with the fields as the numbers of R71. -/
theorem wordsDecodeByTheirFields : Obligations.WordsDecodeByTheirFields := by
  intro cw op a b
  have opEq : (opField cw).toNat = op := opField_toNat cw
  have aEq : BitVec.ofNat 12 a = aField cw := BitVec.eq_of_toNat_eq (by simp [aField_toNat, a])
  have bEq : BitVec.ofNat 16 b = bField cw := BitVec.eq_of_toNat_eq (by simp [bField_toNat, b])
  refine ⟨?illegal, ?command⟩
  case illegal =>
    rw [decode_illegal_iff, opField_toNat, aField_toNat, bField_toNat]
    rfl
  case command =>
    intro i dec
    rw [((decode_command_iff cw i).mp dec).2, commandOf_eq_ite, opEq, aEq, bEq]

/-- Settles O4: the decoder is run on each of the words. -/
theorem handWrittenWordsDecode : Obligations.HandWrittenWordsDecode := by
  unfold Obligations.HandWrittenWordsDecode
  decide

/-! ## The opcode map (R75) -/

/-- The mask of format A and X rows keeps the opcode field only. -/
theorem and_opcodeMask_eq_iff (cw : Word) (op : BitVec 4) :
    cw &&& packWord (BitVec.allOnes 4) 0 0 = packWord op 0 0 ↔ opField cw = op := by
  rw [← packWord_fields cw, packWord_and, packWord_inj, BitVec.and_allOnes, opField_packWord]
  simp

/-- The mask of format Z rows keeps the whole word. -/
theorem and_wholeMask_eq_iff (cw : Word) (op : BitVec 4) :
    cw &&& packWord (BitVec.allOnes 4) (BitVec.allOnes 12) (BitVec.allOnes 16) = packWord op 0 0 ↔
      opField cw = op ∧ aField cw = 0 ∧ bField cw = 0 := by
  rw [← packWord_fields cw, packWord_and, packWord_inj, BitVec.and_allOnes, BitVec.and_allOnes, BitVec.and_allOnes,
    packWord_fields]

theorem row_mtch (i : Instr) : i.row.mtch = packWord i.opcode 0 0 := by
  cases i <;> simp only [Instr.row, Instr.opcode] <;> decide

theorem row_mask (i : Instr) :
    i.row.mask =
      bif opFormatZ i.opcode then packWord (BitVec.allOnes 4) (BitVec.allOnes 12) (BitVec.allOnes 16)
      else packWord (BitVec.allOnes 4) 0 0 := by
  cases i <;> simp only [Instr.row, Instr.opcode] <;> decide

/-- A row's mask and match ask for the opcode of the row's commands and, in format Z, for the other bits to be 0. -/
theorem row_selects_iff (i : Instr) (cw : Word) :
    cw &&& i.row.mask = i.row.mtch ↔
      opField cw = i.opcode ∧ (opFormatZ i.opcode = true → aField cw = 0 ∧ bField cw = 0) := by
  rw [row_mtch, row_mask]
  cases opFormatZ i.opcode with
  | true => exact (and_wholeMask_eq_iff cw _).trans (by simp)
  | false => exact (and_opcodeMask_eq_iff cw _).trans (by simp)

theorem row_mem_opcodeMap (i : Instr) : i.row ∈ opcodeMap := by
  cases i <;> simp [Instr.row, opcodeMap]

theorem exists_instr_of_mem_opcodeMap {row : OpcodeRow} (h : row ∈ opcodeMap) : ∃ i : Instr, i.row = row := by
  simp only [opcodeMap, List.mem_cons, List.not_mem_nil, or_false] at h
  obtain rfl | rfl | rfl | rfl | rfl | rfl | rfl := h
  exacts [⟨.clr, rfl⟩, ⟨.app 0 0, rfl⟩, ⟨.sealBuf, rfl⟩, ⟨.len, rfl⟩, ⟨.getu 0 0, rfl⟩, ⟨.gets 0 0, rfl⟩,
    ⟨.gett 0 0, rfl⟩]

theorem opReserved_opcode (i : Instr) : opReserved i.opcode = false := by
  cases i <;> rfl

/-- The row depends on the opcode only. -/
theorem row_commandOf_opcode (i : Instr) (a : BitVec 12) (b : BitVec 16) : (commandOf i.opcode a b).row = i.row := by
  cases i <;> rfl

theorem mnemonic_eq_app {i : Instr} (h : i.opcode.toNat = 2) : i.row.mnemonic = "APP" := by
  cases i with
  | app => rfl
  | clr | sealBuf | len | getu | gets | gett => cases h

/-- Settles O2: a row selects by the opcode and, in format Z, by the absence of operand bits; these are the decoder's
own checks, but for the count of an `APP`. -/
theorem opcodeMapSelectsTheCommand : Obligations.OpcodeMapSelectsTheCommand := by
  refine ⟨?selected, ?selects⟩
  case selected =>
    intro cw i dec
    obtain ⟨legal, rfl⟩ := (decode_command_iff cw i).mp dec
    obtain ⟨notReserved, noOperands, -⟩ := (not_illegalFields_iff _ _ _).mp legal
    refine ⟨row_mem_opcodeMap _, (row_selects_iff _ cw).mpr ?_⟩
    rw [opcode_commandOf notReserved]
    exact ⟨rfl, noOperands⟩
  case selects =>
    intro cw row mem selected count
    obtain ⟨i, rfl⟩ := exists_instr_of_mem_opcodeMap mem
    obtain ⟨opcode, noOperands⟩ := (row_selects_iff i cw).mp selected
    have countLegal (isApp : i.opcode.toNat = 2) : cntLegal (aField cw) = true :=
      (cntLegal_iff _).mpr (count (mnemonic_eq_app isApp))
    have dec : decode cw = .command (commandOf i.opcode (aField cw) (bField cw)) := by
      rw [decode_command_iff, opcode, not_illegalFields_iff]
      exact ⟨⟨opReserved_opcode i, noOperands, countLegal⟩, rfl⟩
    exact ⟨_, dec, row_commandOf_opcode i _ _⟩

/-! ## The assembler's words (R83) -/

/-- A core line with operands that fit their fields has the word of its fields (R71). -/
theorem assemble_eq_packWord {l : AsmLine} {op a b : Nat} (core : l.coreWord = some (op * 2 ^ 28 + a * 2 ^ 16 + b))
    (notPseudo : l.expand = some l) (aFits : a < 2 ^ 12) (bFits : b < 2 ^ 16) :
    assemble l = some (packWord (BitVec.ofNat 4 op) (BitVec.ofNat 12 a) (BitVec.ofNat 16 b)) := by
  rw [assemble, notPseudo, Option.bind_some, core, Option.map_some]
  refine congrArg some (BitVec.eq_of_toNat_eq ?_)
  simp only [packWord_toNat, BitVec.toNat_ofNat]
  omega

/-- Settles O5: each line's word is the own word of the command it names. -/
theorem assemblerSpellsTheCommand : Obligations.AssemblerSpellsTheCommand := by
  refine ⟨?extract, ?app, ?clr, ?sealBuf, ?len⟩
  case extract =>
    intro offset width ho hw
    have fits : extractFits offset width = true := by simp [extractFits, ho, hw]
    have widthFits : width < 2 ^ 12 := by omega
    have offsetFits : offset < 2 ^ 16 := by omega
    refine ⟨⟨_, assemble_eq_packWord (op := 5) (if_pos fits) rfl widthFits offsetFits, ?getu⟩,
      ⟨_, assemble_eq_packWord (op := 6) (if_pos fits) rfl widthFits offsetFits, ?gets⟩,
      ⟨_, assemble_eq_packWord (op := 7) (if_pos fits) rfl widthFits offsetFits, ?gett⟩⟩
    case getu => exact decode_rawWord (i := .getu _ _) rfl
    case gets => exact decode_rawWord (i := .gets _ _) rfl
    case gett => exact decode_rawWord (i := .gett _ _) rfl
  case app =>
    intro cnt data positive atMost16 fits
    have dataFits : data % 2 ^ cnt < 2 ^ 16 := (Nat.mod_le _ _).trans_lt (by omega)
    have legal : cntLegal (BitVec.ofNat 12 cnt) = true := by
      rw [cntLegal_iff, BitVec.toNat_ofNat]
      omega
    exact ⟨_, assemble_eq_packWord (op := 2) (if_pos ⟨positive, atMost16, fits⟩) rfl (by omega) dataFits,
      decode_rawWord (i := .app _ _) legal⟩
  case clr => exact ⟨_, rfl, decode_rawWord (i := .clr) rfl⟩
  case sealBuf => exact ⟨_, rfl, decode_rawWord (i := .sealBuf) rfl⟩
  case len => exact ⟨_, rfl, decode_rawWord (i := .len) rfl⟩

end Sys2Proof.Machine
end

section
/-! PROOFS of the statements of 40_buffer_construction.md: the commands `CLR`, `APP` and `SEAL` (R100 to R102), what a
construction gives (R103), the sealed buffer (R104) and the empty one (R105). -/

namespace Sys2Proof.Machine

/-! ## A sealed buffer (R104) -/

/-- R101, R104: an `APP` outside of phase `LOADING` ends in `E_STATE`. -/
theorem exec_app_of_not_loading {s : State} (h : s.ph ≠ .loading) (cnt : BitVec 12) (data : BitVec 16) :
    exec (.app cnt data) s = .next (s.raise .eState) := by
  simp [exec, execApp, appFault, h]

/-- R102: sealing twice is an error without an effect. -/
theorem exec_sealBuf_of_not_loading {s : State} (h : s.ph ≠ .loading) :
    exec .sealBuf s = .next (s.raise .eState) := by
  simp [exec, execSeal, h]

theorem EndsNormally.todo_eq {s t : State} {i : Instr} (h : EndsNormally s i t) : t.todo = s.todo := by
  cases h <;> rfl

/-- An event leaves the host's coming actions as they are. -/
theorem perform_todo {a : HostAction} {s t : State} (h : perform a s = .next t) : t.todo = s.todo := by
  cases a with
  | reset =>
    injection h with h
    exact h ▸ rfl
  | write cw =>
    obtain ⟨e, -, rfl⟩ | ⟨i, -, normal⟩ := deliver_cases h
    · rfl
    · exact normal.todo_eq
  | read p => exact (readPort_sameBlock h).2
  | readCmd | writePort | otherAccess => cases h

/-- R262, R263: a step takes the first of the host's coming actions, if there is one. -/
theorem step_todo {s t : State} (h : step s = .next t) : t.todo = s.todo.tail := by
  cases htodo : s.todo with
  | nil =>
    injection (step_idle htodo).symm.trans h with h
    exact h ▸ htodo
  | cons a rest => exact perform_todo ((step_of_todo htodo).symm.trans h)

/-- R104: in phase `SEALED` a command that ends normally and is no `CLR` leaves the phase and the buffer. -/
theorem EndsNormally.keeps_sealed {s t : State} {i : Instr} (h : EndsNormally s i t) (isSealed : s.ph = .sealed)
    (notClr : i ≠ .clr) : t.ph = .sealed ∧ t.buf = s.buf := by
  cases h with
  | clr => exact absurd rfl notClr
  | app loading | sealBuf loading => exact absurd (isSealed.symm.trans loading) (by decide)
  | len | getu | gets | gett => exact ⟨isSealed, rfl⟩

/-- R104: an event that is no reset and no `CLR` leaves the phase and the buffer of a sealed block. -/
theorem step_keeps_sealed {s t : State} (isSealed : s.ph = .sealed) (closed : ∀ a ∈ s.todo.head?, reopens a = false)
    (h : step s = .next t) : t.ph = .sealed ∧ t.buf = s.buf := by
  obtain ⟨-, ph, buf, -⟩ | ⟨rest, htodo, -⟩ | ⟨cw, rest, htodo, ⟨e, -, rfl⟩ | ⟨i, hd, normal⟩⟩ := step_cases h
  · exact ⟨ph.trans isSealed, buf⟩
  · exact absurd (closed .reset (by rw [htodo]; rfl)) (by decide)
  · exact ⟨isSealed, rfl⟩
  · have noClr : decode cw ≠ .command .clr := of_decide_eq_false (closed (.write cw) (by rw [htodo]; rfl))
    exact normal.keeps_sealed isSealed fun clr => noClr (clr ▸ hd)

/-- A run of `k + 1` events is one event and a run of `k` (R9). -/
theorem runFor_succ_eq_next {k : Nat} {s t : State} (h : runFor (k + 1) s = .next t) :
    ∃ u, step s = .next u ∧ runFor k u = .next t := by
  rw [runFor] at h
  cases firstStep : step s with
  | next u => exact ⟨u, rfl, by rwa [firstStep] at h⟩
  | fault f => rw [firstStep] at h; cases h
  | refused r => rw [firstStep] at h; cases h

/-- R104: a run without a reset and without a `CLR` leaves the phase and the buffer of a sealed block. -/
theorem runFor_keeps_sealed {k : Nat} {s t : State} (isSealed : s.ph = .sealed)
    (closed : ∀ a ∈ s.todo.take k, reopens a = false) (h : runFor k s = .next t) :
    t.ph = .sealed ∧ t.buf = s.buf := by
  induction k generalizing s with
  | zero =>
    injection h with h
    exact h ▸ ⟨isSealed, rfl⟩
  | succ k ih =>
    obtain ⟨u, firstStep, later⟩ := runFor_succ_eq_next h
    have headClosed : ∀ a ∈ s.todo.head?, reopens a = false := fun a ha =>
      closed a (List.mem_of_mem_head? (by rwa [List.head?_take, if_neg k.succ_ne_zero]))
    have laterTodo : u.todo.take k = (s.todo.take (k + 1)).tail := by
      rw [step_todo firstStep, ← List.drop_one, ← List.drop_one, List.drop_take, Nat.add_sub_cancel]
    have tailClosed : ∀ a ∈ u.todo.take k, reopens a = false := fun a ha =>
      closed a (List.mem_of_mem_tail (laterTodo ▸ ha))
    obtain ⟨uSealed, uBuf⟩ := step_keeps_sealed isSealed headClosed firstStep
    obtain ⟨tSealed, tBuf⟩ := ih uSealed tailClosed later
    exact ⟨tSealed, tBuf.trans uBuf⟩

/-- Settles O15: by induction on the run, each event of which leaves the phase and the buffer; and by the phase checks
of `APP` and `SEAL`. -/
theorem sealedBufferIsImmutable : Obligations.SealedBufferIsImmutable := by
  refine ⟨?run, ?faults⟩
  case run =>
    intro k s t isSealed closed run
    obtain ⟨tSealed, buf⟩ := runFor_keeps_sealed isSealed closed run
    exact ⟨tSealed, congrArg List.length buf, fun i => congrArg (bitAt · i) buf⟩
  case faults =>
    intro s isSealed
    have notLoading : s.ph ≠ .loading := by simp [isSealed]
    exact ⟨exec_app_of_not_loading notLoading, exec_sealBuf_of_not_loading notLoading⟩

/-! ## `APP` (R101) -/

/-- R101: an `APP` whose bits do not all fit appends none of them. -/
theorem exec_app_of_too_long {s : State} {cnt : BitVec 12} (loading : s.ph = .loading)
    (tooLong : s.cfg.nmax < s.n + cnt.toNat) (data : BitVec 16) :
    exec (.app cnt data) s = .next (s.raise .eCapacity) := by
  simp [exec, execApp, appFault, loading, tooLong]

/-- R8: the bits written for a number, by their places. -/
theorem bitsOf_eq_map (n v : Nat) : bitsOf n v = (List.range n).map fun k => v.testBit (n - 1 - k) := by
  induction n with
  | zero => rfl
  | succ n ih =>
    have place (k : Nat) : n - 1 - k = n + 1 - 1 - (k + 1) := by omega
    rw [bitsOf, ih, List.range_succ_eq_map, List.map_cons, List.map_map]
    exact congrArg _ (List.map_congr_left fun k _ => congrArg v.testBit (place k))

/-- R101: what an `APP` writes is the bit string `data[cnt-1:0]`. -/
theorem bitsOf_mod_eq_dataBits (cnt : BitVec 12) (data : BitVec 16) :
    bitsOf cnt.toNat (data.toNat % 2 ^ cnt.toNat) = dataBits cnt data := by
  rw [bitsOf_eq_map]
  refine List.map_congr_left fun k hk => ?_
  have inside : cnt.toNat - 1 - k < cnt.toNat := by
    have := List.mem_range.mp hk
    omega
  rw [Nat.testBit_mod_two_pow, decide_eq_true inside, Bool.true_and, BitVec.getLsbD]

/-- R101: an `APP` whose bits fit appends all of them. -/
theorem exec_app_of_fits {s : State} {cnt : BitVec 12} (loading : s.ph = .loading)
    (fits : s.n + cnt.toNat ≤ s.cfg.nmax) (data : BitVec 16) :
    exec (.app cnt data) s = .next ({ s with buf := s.buf ++ dataBits cnt data }.done .none) := by
  rw [(EndsNormally.app loading fits).exec_eq, memWrite, bitsOf_mod_eq_dataBits]

/-- R101, R73: the word of an `APP` of 1 to 16 bits. -/
theorem decode_app {cnt : BitVec 12} (positive : 1 ≤ cnt.toNat) (atMost16 : cnt.toNat ≤ 16) (data : BitVec 16) :
    decode (packWord 2 cnt data) = .command (.app cnt data) :=
  decode_rawWord (i := .app cnt data) ((cntLegal_iff cnt).mpr ⟨positive, atMost16⟩)

/-- R77: a word whose fields, as numbers, are those of an illegal word. -/
theorem decode_illegal_of_fields {cw : Word}
    (h : IllegalFields (cw.toNat / 2 ^ 28) (cw.toNat / 2 ^ 16 % 2 ^ 12) (cw.toNat % 2 ^ 16)) :
    ∃ why, decode cw = .illegal why := by
  rwa [decode_illegal_iff, opField_toNat, aField_toNat, bField_toNat]

/-- Settles O11: the word is the own word of the `APP`, and each of the last three clauses is one outcome of its
checks. -/
theorem appAppendsTheBits : Obligations.AppAppendsTheBits := by
  intro s cnt data positive atMost16
  refine ⟨?word, ?badCount, ?isSealed, ?tooLong, ?fits⟩
  case word =>
    intro cw hcw
    have own : packWord 2 cnt data = cw := BitVec.eq_of_toNat_eq ((packWord_toNat _ _ _).trans hcw.symm)
    exact own ▸ decode_app positive atMost16 data
  case badCount => exact fun cw op cnt => decode_illegal_of_fields (.inr (.inr (.inr ⟨op, cnt⟩)))
  case isSealed => exact fun notLoading => exec_app_of_not_loading notLoading cnt data
  case tooLong => exact fun loading tooLong => exec_app_of_too_long loading tooLong data
  case fits => exact fun loading fits => exec_app_of_fits loading fits data

/-! ## A whole construction (R103) -/

@[simp] theorem dataBits_length (cnt : BitVec 12) (data : BitVec 16) : (dataBits cnt data).length = cnt.toNat := by
  simp [dataBits]

@[simp] theorem payloadOf_cons (p : BitVec 12 × BitVec 16) (pieces : List (BitVec 12 × BitVec 16)) :
    payloadOf (p :: pieces) = dataBits p.1 p.2 ++ payloadOf pieces := rfl

/-- R22, R103: the length of a construction is the sum of its counts. -/
theorem payloadOf_length (pieces : List (BitVec 12 × BitVec 16)) :
    (payloadOf pieces).length = (pieces.map fun p => p.1.toNat).sum := by
  simp [payloadOf, List.length_flatMap]

/-- A write of a command whose answer is a next state is the first event of a run (R9, R28). -/
theorem runFor_write {k : Nat} {s t : State} {cw : Word} {i : Instr} {rest : List HostAction}
    (htodo : s.todo = .write cw :: rest) (dec : decode cw = .command i)
    (answer : exec i { s with todo := rest } = .next t) : runFor (k + 1) s = runFor k t := by
  rw [runFor, step_write htodo, deliver_of_command dec, answer]

/-- R103: while loading, the `APP`s of pieces that fit and a `SEAL` append the pieces' bit strings to the buffer and
seal it. -/
theorem runFor_constructActions {s : State} {pieces : List (BitVec 12 × BitVec 16)} {rest : List HostAction}
    (loading : s.ph = .loading) (counts : ∀ p ∈ pieces, 1 ≤ p.1.toNat ∧ p.1.toNat ≤ 16)
    (fits : s.n + (payloadOf pieces).length ≤ s.cfg.nmax) (htodo : s.todo = constructActions pieces ++ rest) :
    runFor (pieces.length + 1) s =
      .next { s with
        ph := .sealed, buf := s.buf ++ payloadOf pieces, code := .ok, result := .none, todo := rest } := by
  induction pieces generalizing s with
  | nil =>
    have sealing := EndsNormally.sealBuf (s := { s with todo := rest }) loading
    rw [List.length_nil, runFor_write htodo (decode_encode rfl) sealing.exec_eq]
    simp [runFor, State.done, payloadOf]
  | cons p pieces ih =>
    obtain ⟨⟨positive, atMost16⟩, laterCounts⟩ := List.forall_mem_cons.mp counts
    rw [payloadOf_cons, List.length_append, dataBits_length] at fits
    have firstFits : s.n + p.1.toNat ≤ s.cfg.nmax := by omega
    have firstApp := exec_app_of_fits (s := { s with todo := constructActions pieces ++ rest }) loading firstFits p.2
    rw [List.length_cons, runFor_write htodo (decode_app positive atMost16 p.2) firstApp,
      ih ?stillLoading laterCounts ?laterFit ?laterTodo, payloadOf_cons, ← List.append_assoc]
    case stillLoading => exact loading
    case laterTodo => rfl
    case laterFit =>
      rw [State.done_n, State.n, List.length_append, dataBits_length, Nat.add_assoc]
      exact fits
    rfl

/-- Settles O14: the construction appends the pieces to the empty buffer. -/
theorem constructionConcatenates : Obligations.ConstructionConcatenates := by
  refine ⟨?run, payloadOf_length⟩
  intro s pieces rest loading empty counts fits htodo
  have fitsEmpty : s.n + (payloadOf pieces).length ≤ s.cfg.nmax := by simpa [State.n, empty] using fits
  rw [runFor_constructActions loading counts fitsEmpty htodo, empty, List.nil_append]

/-! ## `CLR` and `SEAL` (R100, R102) -/

/-- Settles O10: a word of opcode 1 with an operand bit is illegal; what `CLR` leaves is the block just reset. -/
theorem clrStartsAConstruction : Obligations.ClrStartsAConstruction := by
  intro s
  refine ⟨decode_rawWord (i := .clr) rfl, ?operandBits, rfl, rfl, statusWord_of_fresh ⟨rfl, rfl, rfl, rfl⟩⟩
  intro cw op operands
  have aOrB : cw.toNat / 2 ^ 16 % 2 ^ 12 ≠ 0 ∨ cw.toNat % 2 ^ 16 ≠ 0 := by omega
  exact decode_illegal_of_fields (.inr (.inr (.inl ⟨.inl op, aOrB⟩)))

/-- Settles O13: the two outcomes of the phase check. -/
theorem sealEndsTheConstruction : Obligations.SealEndsTheConstruction := fun _ =>
  ⟨decode_rawWord (i := .sealBuf) rfl, fun loading => (EndsNormally.sealBuf loading).exec_eq,
    exec_sealBuf_of_not_loading⟩

/-! ## The empty buffer (R105) -/

/-- R56, R121: a field outside of the buffer, or of no bits, is `E_RANGE` in an integer extraction. -/
theorem intFault_of_outOfRange {n o w : Nat} (h : w = 0 ∨ n < o + w) : intFault .sealed n o w = some .eRange := by
  simp [intFault, h]

/-- R56, R140: the same in a text extraction. -/
theorem textFault_of_outOfRange {n o w : Nat} (h : w = 0 ∨ n < o + w) : textFault .sealed n o w = some .eRange := by
  simp [textFault, h]

/-- R56, R226: every extraction of a field outside of the buffer, or of no bits, ends in `E_RANGE`. -/
theorem exec_extraction_of_outOfRange {s : State} {i : Instr} {offset : BitVec 16} {width : BitVec 12}
    (isSealed : s.ph = .sealed) (outOfRange : width.toNat = 0 ∨ s.n < offset.toNat + width.toNat)
    (h : i = .getu offset width ∨ i = .gets offset width ∨ i = .gett offset width) :
    exec i s = .next (s.raise .eRange) := by
  obtain rfl | rfl | rfl := h
  · rw [exec, execGetu, extractInt, isSealed, intFault_of_outOfRange outOfRange, State.orFault_some]
  · rw [exec, execGets, extractInt, isSealed, intFault_of_outOfRange outOfRange, State.orFault_some]
  · rw [exec, execGett, isSealed, textFault_of_outOfRange outOfRange, State.orFault_some]

/-- Settles O16: with `N = 0` no field lies in the buffer, and `LEN` reads 0. -/
theorem emptyBufferIsLegal : Obligations.EmptyBufferIsLegal := by
  intro s empty
  refine ⟨fun loading => (EndsNormally.sealBuf loading).exec_eq, fun isSealed => ⟨?len, fun offset width => ?extract⟩⟩
  case len =>
    rw [(EndsNormally.len isSealed).exec_eq, empty]
    rfl
  case extract =>
    have outOfRange : width.toNat = 0 ∨ s.n < offset.toNat + width.toNat := by omega
    exact ⟨exec_extraction_of_outOfRange isSealed outOfRange (.inl rfl),
      exec_extraction_of_outOfRange isSealed outOfRange (.inr (.inl rfl)),
      exec_extraction_of_outOfRange isSealed outOfRange (.inr (.inr rfl))⟩

end Sys2Proof.Machine
end

section
/-! PROOFS of the statements of 41_length_and_integer.md: `LEN`, `GETU` and `GETS` (R120 to R127), the value of a field
bit by bit and in parts (R129, R130), and sign extension (R131). -/

namespace Sys2Proof.Machine

/-! ## How an integer extraction ends (R121, R122, R126, R127) -/

/-- R121, R226: the phase comes before every other check of an integer extraction. -/
theorem intFault_of_not_sealed {ph : Phase} (h : ph ≠ .sealed) (n o w : Nat) : intFault ph n o w = some .eState :=
  if_pos h

/-- R127: `E_WIDTH` is the fault of a field that is in range and wider than `RES`. -/
theorem intFault_eq_eWidth_iff (ph : Phase) (n o w : Nat) :
    intFault ph n o w = some .eWidth ↔ ph = .sealed ∧ 33 ≤ w ∧ o + w ≤ n := by
  unfold intFault Config.wmax
  split_ifs with notSealed outOfRange wide
  · simp [notSealed]
  · simp only [Option.some.injEq, reduceCtorEq, false_iff]
    omega
  · simp only [not_not.mp notSealed, true_and, true_iff]
    omega
  · simp only [false_iff]
    omega

/-- R126: both integer extractions end in the one fault of their checks. -/
theorem exec_intExtraction_of_fault {s : State} {i : Instr} {offset : BitVec 16} {width : BitVec 12} {e : Code}
    (fault : intFault s.ph s.n offset.toNat width.toNat = some e)
    (h : i = .getu offset width ∨ i = .gets offset width) : exec i s = .next (s.raise e) := by
  obtain rfl | rfl := h
  · rw [exec, execGetu, extractInt, fault, State.orFault_some]
  · rw [exec, execGets, extractInt, fault, State.orFault_some]

/-- R121, R122: the three fault clauses of an integer extraction, in their order. -/
theorem exec_intExtraction_faults {i : Instr} {offset : BitVec 16} {width : BitVec 12} (s : State)
    (h : i = .getu offset width ∨ i = .gets offset width) :
    (s.ph ≠ .sealed → exec i s = .next (s.raise .eState)) ∧
    (s.ph = .sealed → width.toNat = 0 ∨ s.n < offset.toNat + width.toNat → exec i s = .next (s.raise .eRange)) ∧
    (s.ph = .sealed → width.toNat ≠ 0 → offset.toNat + width.toNat ≤ s.n → 32 < width.toNat →
      exec i s = .next (s.raise .eWidth)) :=
  ⟨fun notSealed => exec_intExtraction_of_fault (intFault_of_not_sealed notSealed _ _ _) h,
    fun isSealed outOfRange => exec_extraction_of_outOfRange isSealed outOfRange (h.imp_right .inl),
    fun isSealed _ inRange wide =>
      exec_intExtraction_of_fault ((intFault_eq_eWidth_iff _ _ _ _).mpr ⟨isSealed, wide, inRange⟩) h⟩

/-- Settles O23: by the one check of the two commands. -/
theorem getuAndGetsFaultAlike : Obligations.GetuAndGetsFaultAlike := by
  intro s offset width
  cases checks : intFault s.ph s.n offset.toNat width.toNat with
  | none =>
    obtain ⟨isSealed, nonempty, inRange, narrow⟩ := (intFault_none_iff _ _ _ _).mp checks
    exact ⟨_, _, (EndsNormally.getu isSealed nonempty inRange narrow).exec_eq,
      (EndsNormally.gets isSealed nonempty inRange narrow).exec_eq, rfl, fun fault => absurd rfl fault⟩
  | some e =>
    exact ⟨_, _, exec_intExtraction_of_fault checks (.inl rfl), exec_intExtraction_of_fault checks (.inr rfl), rfl,
      fun _ => rfl⟩

/-- A command reports the error `e` exactly when `e` is the fault of its checks (R220). -/
theorem orFault_code_eq_iff {s t u : State} {f : Option Code} {e : Code} (ended : u.code = .ok) (error : e ≠ .ok)
    (h : (.next (s.orFault f u) : Host.Outcome State Fault Refusal) = .next t) : t.code = e ↔ f = some e := by
  injection h with h
  subst h
  cases f with
  | none => simp [ended, error.symm]
  | some e' => simp

theorem appFault_ne_eWidth (nmax : Nat) (ph : Phase) (n cnt : Nat) : appFault nmax ph n cnt ≠ some .eWidth := by
  unfold appFault
  split_ifs <;> simp

theorem textFault_ne_eWidth (ph : Phase) (n o w : Nat) : textFault ph n o w ≠ some .eWidth := by
  unfold textFault
  split_ifs <;> simp

/-- R127, R221: only an integer extraction reports `E_WIDTH`. -/
theorem intExtraction_of_code_eWidth {i : Instr} {s t : State} (h : exec i s = .next t) (refused : t.code = .eWidth) :
    ∃ offset width, i = .getu offset width ∨ i = .gets offset width := by
  cases i with
  | clr =>
    injection h with h
    subst h
    cases refused
  | app => exact absurd ((orFault_code_eq_iff rfl (by decide) h).mp refused) (appFault_ne_eWidth _ _ _ _)
  | sealBuf | len => exact absurd ((orFault_code_eq_iff rfl (by decide) h).mp refused) (by split <;> simp)
  | getu => exact ⟨_, _, .inl rfl⟩
  | gets => exact ⟨_, _, .inr rfl⟩
  | gett => exact absurd ((orFault_code_eq_iff rfl (by decide) h).mp refused) (textFault_ne_eWidth _ _ _ _)

/-- R127: an integer extraction reports `E_WIDTH` exactly for a field in range of 33 bits or more. -/
theorem exec_intExtraction_code_eWidth_iff {i : Instr} {s t : State} {offset : BitVec 16} {width : BitVec 12}
    (h : exec i s = .next t) (isInt : i = .getu offset width ∨ i = .gets offset width) :
    t.code = .eWidth ↔ s.ph = .sealed ∧ 33 ≤ width.toNat ∧ offset.toNat + width.toNat ≤ s.n := by
  rw [← intFault_eq_eWidth_iff]
  obtain rfl | rfl := isInt
  · exact orFault_code_eq_iff rfl (by decide) h
  · exact orFault_code_eq_iff rfl (by decide) h

/-- Settles O24: by the fault of the checks; out of range the range check comes first. -/
theorem widthRefusalExactly : Obligations.WidthRefusalExactly := by
  refine ⟨fun i s t h => ⟨fun refused => ?refused, ?wide⟩, ?outOfRange⟩
  case refused =>
    obtain ⟨offset, width, isInt⟩ := intExtraction_of_code_eWidth h refused
    exact ⟨offset, width, isInt, (exec_intExtraction_code_eWidth_iff h isInt).mp refused⟩
  case wide =>
    rintro ⟨offset, width, isInt, wideInRange⟩
    exact (exec_intExtraction_code_eWidth_iff h isInt).mpr wideInRange
  case outOfRange =>
    intro i s t offset width h isInt isSealed _ outOfRange
    injection h.symm.trans (exec_extraction_of_outOfRange isSealed (.inr outOfRange) (isInt.imp_right .inl)) with h
    exact h ▸ rfl

/-! ## The value of a field in parts (R129, R130) -/

/-- R54: the value of a field in two parts, either of which may be of no bits. -/
theorem memRead_add {m : Memory} {o w1 w2 : Nat} (h : o + w1 + w2 ≤ m.length) :
    memRead m o (w1 + w2) = memRead m o w1 * 2 ^ w2 + memRead m (o + w1) w2 := by
  rw [memRead, bits_add, valueOf_append, bits_length h]
  rfl

/-- R8: the value of a field of one bit. -/
theorem memRead_one {m : Memory} {o : Nat} (h : o + 1 ≤ m.length) : memRead m o 1 = (bitAt m o).toNat := by
  rw [memRead_eq_fieldSum h, fieldSum_succ]
  cases bitAt m o <;> rfl

/-- R130: the value of the middle part of a field. -/
theorem memRead_middle {m : Memory} {o a b c : Nat} (h : o + (a + b + c) ≤ m.length) :
    memRead m (o + a) b = memRead m o (a + b + c) / 2 ^ c % 2 ^ b := by
  rw [memRead_add (by omega), Nat.mul_comm, Nat.mul_add_div (by positivity), Nat.div_eq_of_lt (memRead_lt _ _ _),
    memRead_add (by omega), Nat.add_zero, Nat.mul_add_mod', Nat.mod_eq_of_lt (memRead_lt _ _ _)]

/-- Settles O27: the part is the middle one of three. -/
theorem subFieldLaw : Obligations.SubFieldLaw := by
  intro m o w i j inRange hij hjw
  have parts : w = i + (j - i + 1) + (w - 1 - j) := by omega
  refine ⟨by omega, ?_⟩
  rw [memRead_middle (c := w - 1 - j) (by omega), ← parts]

theorem serialValue_succ (m : Memory) (o k : Nat) :
    serialValue m o (k + 1) = 2 * serialValue m o k + (bitAt m (o + k)).toNat := rfl

/-- R129: the unsigned recurrence gives the value of a field inside the buffer. -/
theorem memRead_eq_serialValue {m : Memory} {o w : Nat} (h : o + w ≤ m.length) :
    memRead m o w = serialValue m o w := by
  induction w with
  | zero => rfl
  | succ w ih =>
    rw [memRead_add h, memRead_one (by omega), ih (by omega), serialValue_succ]
    ring

/-- R129: the recurrence over the integers differs from the unsigned one by the weight that the sign bit carries
twice. -/
theorem serialSigned_succ (m : Memory) (o k : Nat) :
    serialSigned m o (k + 1) = (serialValue m o (k + 1) : Int) - if bitAt m o then 2 ^ (k + 1) else 0 := by
  induction k with
  | zero => cases h : bitAt m o <;> simp [serialSigned, serialValue, h]
  | succ k ih =>
    rw [serialSigned, ih, serialValue_succ m o (k + 1)]
    push_cast
    split <;> ring

/-! ## Two's complement (R8, R122, R131) -/

/-- R8: the first bit of a field is its most significant one. -/
theorem two_pow_le_memRead_iff {m : Memory} {o w : Nat} (positive : 1 ≤ w) (inRange : o + w ≤ m.length) :
    2 ^ (w - 1) ≤ memRead m o w ↔ bitAt m o = true := by
  obtain ⟨k, rfl⟩ := Nat.exists_eq_add_of_le positive
  have rest := memRead_lt m (o + 1) k
  rw [memRead_add (by omega), memRead_one (by omega), Nat.add_sub_cancel_left]
  cases bitAt m o
  · simpa using rest
  · simp

/-- R122: the sign of a field is its first bit. -/
theorem sval_memRead {m : Memory} {o w : Nat} (positive : 1 ≤ w) (inRange : o + w ≤ m.length) :
    sval w (memRead m o w) = if bitAt m o then (memRead m o w : Int) - 2 ^ w else memRead m o w := by
  simp only [sval, two_pow_le_memRead_iff positive inRange]

/-- R8: the sign of a `w`-bit vector, by its value. -/
theorem msb_ofNat_of_lt {w u : Nat} (h : u < 2 ^ w) : (BitVec.ofNat w u).msb = decide (2 ^ (w - 1) ≤ u) := by
  rw [BitVec.msb_eq_decide, BitVec.toNat_ofNat, Nat.mod_eq_of_lt h]

/-- R8: the spec's signed value is that of the `w`-bit vector. -/
theorem sval_eq_toInt {w u : Nat} (h : u < 2 ^ w) : sval w u = (BitVec.ofNat w u).toInt := by
  simp [sval, BitVec.toInt_eq_msb_cond, msb_ofNat_of_lt h, Nat.mod_eq_of_lt h]

/-- R8: the spec's extension is the sign extension of the `w`-bit vector. -/
theorem sext32_eq_signExtend {w u : Nat} (h : u < 2 ^ w) : sext32 u w = (BitVec.ofNat w u).signExtend 32 :=
  congrArg (BitVec.ofInt 32) (sval_eq_toInt h)

/-- R8: the 32-bit vector of an extension has the field's signed value. -/
theorem sext32_toInt {w u : Nat} (atMost32 : w ≤ 32) (h : u < 2 ^ w) : (sext32 u w).toInt = sval w u := by
  rw [sext32_eq_signExtend h, BitVec.toInt_signExtend_of_le atMost32, sval_eq_toInt h]

/-- R8, R123: the 32-bit vector of a value of at most 32 bits has that value. -/
theorem zext32_toNat {w u : Nat} (atMost32 : w ≤ 32) (h : u < 2 ^ w) : (zext32 u).toNat = u :=
  BitVec.toNat_ofNat u 32 ▸ Nat.mod_eq_of_lt (h.trans_le (Nat.pow_le_pow_right (by decide) atMost32))

/-- R124: a bit of the extension at or above `w-1` is the sign. -/
theorem getLsbD_sext32 {w u j : Nat} (positive : 1 ≤ w) (h : u < 2 ^ w) (signPart : w - 1 ≤ j) (hj : j < 32) :
    (sext32 u w).getLsbD j = decide (2 ^ (w - 1) ≤ u) := by
  rw [sext32_eq_signExtend h, BitVec.getLsbD_signExtend, decide_eq_true hj, Bool.true_and, ← msb_ofNat_of_lt h]
  split
  · obtain rfl : j = w - 1 := by omega
    exact (BitVec.msb_eq_getLsbD_last _).symm
  · rfl

/-- R125: the low `w` bits of the extension are the field. -/
theorem setWidth_sext32 {w u : Nat} (atMost32 : w ≤ 32) (h : u < 2 ^ w) :
    (sext32 u w).setWidth w = BitVec.ofNat w u := by
  ext j hj
  have hj32 : j < 32 := by omega
  simp [sext32_eq_signExtend h, ← BitVec.getLsbD_eq_getElem, BitVec.getLsbD_signExtend, hj, hj32]

/-- R125: the unsigned value is the signed value modulo `2^w`. -/
theorem sval_emod {w u : Nat} (h : u < 2 ^ w) : sval w u % 2 ^ w = u := by
  have small : (u : Int) % 2 ^ w = u := Int.emod_eq_of_lt (by positivity) (by exact_mod_cast h)
  unfold sval
  split
  · rw [Int.sub_emod_right, small]
  · exact small

/-- The exclusive or with a power of two above a number adds it. -/
theorem xor_two_pow_of_lt {k u : Nat} (h : u < 2 ^ k) : u ^^^ 2 ^ k = u + 2 ^ k := by
  have disjoint : 2 ^ k + u = 2 ^ k ||| u := by simpa using Nat.two_pow_add_eq_or_of_lt h 1
  rw [Nat.add_comm, disjoint]
  refine Nat.eq_of_testBit_eq fun j => ?_
  rw [Nat.testBit_xor, Nat.testBit_or, Nat.testBit_two_pow]
  by_cases hj : k = j
  · simp [← hj, Nat.testBit_lt_two_pow h]
  · simp [hj]

/-- R131: flipping the sign bit and taking its weight off gives the signed value. -/
theorem sval_eq_xor_sub {w u : Nat} (positive : 1 ≤ w) (h : u < 2 ^ w) :
    sval w u = ((u ^^^ 2 ^ (w - 1) : Nat) : Int) - 2 ^ (w - 1) := by
  have halves := Nat.two_pow_pred_add_two_pow_pred positive
  unfold sval
  split
  next negative =>
    obtain ⟨low, rfl⟩ := Nat.exists_eq_add_of_le' negative
    rw [← xor_two_pow_of_lt (by omega), Nat.xor_xor_cancel_right, xor_two_pow_of_lt (by omega)]
    have weight : (2 : Int) ^ w = 2 ^ (w - 1) + 2 ^ (w - 1) := by exact_mod_cast halves.symm
    push_cast
    rw [weight]
    ring
  next nonnegative =>
    rw [xor_two_pow_of_lt (by omega)]
    push_cast
    ring

/-- Settles O28: the first two clauses by the sign bit of the `w`-bit vector, the last by its exclusive-or form. -/
theorem signExtensionLaw : Obligations.SignExtensionLaw := by
  intro w u positive atMost32 bound
  have h : u < 2 ^ w := by have := Nat.two_pow_pos w; omega
  refine ⟨fun nonnegative => ?nonnegative, fun negative => ?negative,
    (sext32_toInt atMost32 h).trans (sval_eq_xor_sub positive h)⟩
  case nonnegative => rw [sext32, sval, if_neg (Nat.not_le.mpr nonnegative), BitVec.ofInt_natCast, zext32]
  case negative =>
    have weight : 2 ^ w ≤ 2 ^ 32 := Nat.pow_le_pow_right (by decide) atMost32
    rw [sext32_eq_signExtend h]
    apply BitVec.eq_of_toNat_eq
    rw [BitVec.toNat_signExtend, msb_ofNat_of_lt h, if_pos (decide_eq_true negative), BitVec.toNat_setWidth,
      BitVec.toNat_ofNat, Nat.mod_eq_of_lt h, Nat.mod_eq_of_lt (h.trans_le weight), zext32_toNat le_rfl (by omega),
      Nat.add_sub_assoc weight]

/-- Settles O26: by induction on the width; the signed recurrence is the unsigned one without the weight of the sign
bit. -/
theorem bitSerialDefinitionAgrees : Obligations.BitSerialDefinitionAgrees := by
  intro m o w inRange
  have signed (positive : 1 ≤ w) : sval w (memRead m o w) = serialSigned m o w := by
    obtain ⟨k, rfl⟩ := Nat.exists_eq_add_of_le' positive
    rw [sval_memRead positive inRange, memRead_eq_serialValue inRange, serialSigned_succ]
    split <;> simp
  exact ⟨memRead_eq_serialValue inRange, signed,
    fun positive atMost32 => (sext32_toInt atMost32 (memRead_lt _ _ _)).trans (signed positive)⟩

/-! ## The commands (R120 to R125) -/

/-- R77, R86: a word whose number is that of a command's own word decodes to the command. -/
theorem decode_of_toNat_eq {cw : Word} {i : Instr} (wf : i.wf = true) (h : cw.toNat = i.rawWord.toNat) :
    decode cw = .command i :=
  BitVec.eq_of_toNat_eq h ▸ decode_rawWord wf

/-- R120: outside of phase `SEALED` a `LEN` ends in `E_STATE`. -/
theorem exec_len_of_not_sealed {s : State} (h : s.ph ≠ .sealed) : exec .len s = .next (s.raise .eState) := by
  simp [exec, execLen, h]

/-- R120: the length fits in 16 bits. -/
theorem Inv.n_lt {s : State} (h : Inv s) : s.n < 2 ^ 16 := by
  have fits := (Memory.wf_iff _ _).mp h.memWf
  have capacity := h.cfgWf.2
  rw [State.n]
  omega

/-- Settles O17: the length fits in 16 bits, so the upper half of its vector is 0. -/
theorem lenReturnsTheLength : Obligations.LenReturnsTheLength := by
  intro s inv
  have value : (zext32 s.n).toNat = s.n := zext32_toNat (by decide) inv.n_lt
  refine ⟨decode_rawWord (i := .len) rfl, exec_len_of_not_sealed, fun isSealed =>
    ⟨zext32 s.n, value, BitVec.eq_of_toNat_eq ?_, (EndsNormally.len isSealed).exec_eq⟩⟩
  rw [BitVec.extractLsb'_toNat, value, Nat.shiftRight_eq_div_pow, Nat.div_eq_of_lt inv.n_lt]
  rfl

/-- Settles O18: the own word of the command, the faults of the checks, and the value of the field. -/
theorem getuReturnsTheField : Obligations.GetuReturnsTheField := by
  intro s offset width
  obtain ⟨eState, eRange, eWidth⟩ := exec_intExtraction_faults s (i := .getu offset width) (.inl rfl)
  refine ⟨fun cw hcw => decode_of_toNat_eq rfl (hcw.trans (packWord_toNat 5 _ _).symm), eState, eRange, eWidth, ?_⟩
  intro isSealed nonempty inRange narrow
  exact ⟨_, (zext32_toNat narrow (memRead_lt _ _ _)).trans (memRead_eq_fieldSum inRange),
    (EndsNormally.getu isSealed nonempty inRange narrow).exec_eq⟩

/-- Settles O19: the own word of the command, the faults of the checks, and the signed value of the field, whose sign
is its first bit. -/
theorem getsReturnsTheSignedField : Obligations.GetsReturnsTheSignedField := by
  intro s offset width
  obtain ⟨eState, eRange, eWidth⟩ := exec_intExtraction_faults s (i := .gets offset width) (.inr rfl)
  refine ⟨fun cw hcw => decode_of_toNat_eq rfl (hcw.trans (packWord_toNat 6 _ _).symm), eState, eRange, eWidth, ?_⟩
  intro isSealed nonempty inRange narrow
  refine ⟨_, ?_, (EndsNormally.gets isSealed nonempty inRange narrow).exec_eq⟩
  rw [sext32_toInt narrow (memRead_lt _ _ _), sval_memRead (Nat.pos_of_ne_zero nonempty) inRange,
    memRead_eq_fieldSum inRange]

/-- Settles O20: the value is that of a field of `w` bits. -/
theorem unsignedResultRange : Obligations.UnsignedResultRange := by
  intro s offset width isSealed positive atMost32 inRange
  have bound := memRead_lt s.buf offset.toNat width.toNat
  have value := zext32_toNat atMost32 bound
  refine ⟨_, (EndsNormally.getu isSealed (by omega) inRange atMost32).exec_eq, by omega, fun j hj => ?_⟩
  rw [BitVec.getLsbD, value]
  exact Nat.testBit_lt_two_pow (bound.trans_le (Nat.pow_le_pow_right (by decide) hj))

/-- Settles O21: the bounds are those of a `w`-bit vector, and the copies those of its sign. -/
theorem signedResultRange : Obligations.SignedResultRange := by
  intro s offset width isSealed positive atMost32 inRange
  have bound := memRead_lt s.buf offset.toNat width.toNat
  refine ⟨_, (EndsNormally.gets isSealed (by omega) inRange atMost32).exec_eq, ?least, ?greatest,
    fun j signPart hj => ?copies⟩
  case least =>
    rw [sext32_toInt atMost32 bound, sval_eq_toInt bound]
    exact BitVec.le_toInt _
  case greatest =>
    rw [sext32_toInt atMost32 bound, sval_eq_toInt bound]
    exact Int.le_sub_one_of_lt BitVec.toInt_lt
  case copies =>
    simp only [getLsbD_sext32 positive bound signPart hj, two_pow_le_memRead_iff positive inRange, Bool.decide_eq_true]

/-- Settles O22: the two results are the zero and the sign extension of one `w`-bit vector. -/
theorem twosComplementConsistency : Obligations.TwosComplementConsistency := by
  intro s offset width isSealed positive atMost32 inRange
  have bound := memRead_lt s.buf offset.toNat width.toNat
  refine ⟨_, _, (EndsNormally.getu isSealed (by omega) inRange atMost32).exec_eq,
    (EndsNormally.gets isSealed (by omega) inRange atMost32).exec_eq, ?modulo, ?signed, ?lowBits⟩
  case modulo => rw [zext32_toNat atMost32 bound, sext32_toInt atMost32 bound, sval_emod bound]
  case signed =>
    rw [zext32_toNat atMost32 bound, sext32_toInt atMost32 bound, sval]
    simp only [← Nat.not_lt, ite_not]
  case lowBits =>
    rw [setWidth_sext32 atMost32 bound]
    exact BitVec.setWidth_ofNat_of_le atMost32 _

end Sys2Proof.Machine
end

section
/-! PROOFS of the statements of 42_text.md: the alphabet (R141), the trim (R142 to R144), and `GETT` (R140, R145 to
R149). -/

namespace Sys2Proof.Machine

/-! ## The alphabet (R141) -/

theorem asc_toNat_of_lt {c : Nat} (h : c < 32) : (asc c).toNat = c + 64 := by
  rw [asc, if_pos h, BitVec.toNat_ofNat]
  omega

theorem asc_toNat_of_le {c : Nat} (h : 32 ≤ c) (small : c < 64) : (asc c).toNat = c := by
  rw [asc, if_neg (Nat.not_lt.mpr h), BitVec.toNat_ofNat]
  omega

/-- R141: the inverse of the alphabet is the code modulo 64. -/
theorem asc_toNat_mod {c : Nat} (h : c < 64) : (asc c).toNat % 64 = c := by
  obtain low | high := Nat.lt_or_ge c 32
  · rw [asc_toNat_of_lt low]
    omega
  · rw [asc_toNat_of_le high h, Nat.mod_eq_of_lt h]

/-- R141, R146: a character code is the code of its own group. -/
theorem asc_mod_of_isCharCode {c : Byte} (h : isCharCode c) : asc (c.toNat % 64) = c := by
  obtain ⟨least, greatest⟩ := h
  apply BitVec.eq_of_toNat_eq
  obtain low | high := Nat.lt_or_ge c.toNat 64
  · rw [Nat.mod_eq_of_lt low, asc_toNat_of_le least low]
  · rw [asc_toNat_of_lt (by omega)]
    omega

/-- Settles O36: the two halves of the table, the two upper bits by the 64 values, and the rest by the inverse. -/
theorem alphabetTable : Obligations.AlphabetTable := by
  refine ⟨fun c => asc_toNat_of_lt c.isLt, fun c => asc_toNat_of_le (by omega) (by omega), fun c => ?bits,
    fun c d same => ?injective, fun c => asc_toNat_mod c.isLt⟩
  case bits =>
    have upperBits : ∀ c : Fin 64, (asc c.val).getLsbD 7 = false ∧ (asc c.val).getLsbD 6 = !(c.val.testBit 5) := by
      decide
    have lowBits : (asc c.val).setWidth 6 = BitVec.ofNat 6 c.val := by
      apply BitVec.eq_of_toNat_eq
      rw [BitVec.toNat_setWidth, BitVec.toNat_ofNat, Nat.mod_eq_of_lt c.isLt]
      exact asc_toNat_mod c.isLt
    exact ⟨(upperBits c).1, (upperBits c).2, lowBits⟩
  case injective =>
    apply Fin.ext
    rw [← asc_toNat_mod c.isLt, same, asc_toNat_mod d.isLt]

/-! ## The trim (R142 to R144) -/

theorem isPad_iff (c : Byte) : isPad c = true ↔ isPadCode c := by
  rw [isPad, Bool.or_eq_true, decide_eq_true_eq, decide_eq_true_eq]

theorem isPad_eq_false_iff (c : Byte) : isPad c = false ↔ ¬ isPadCode c := by
  rw [← isPad_iff, Bool.not_eq_true]

/-- R142: everything the loop of the trim passes is `@` or space. -/
theorem isPadCode_of_trimLen_le {ch : List Byte} {n j : Nat} (passed : trimLen ch n ≤ j) (h : j < n) :
    isPadCode (ch.getD j 0) := by
  induction n with
  | zero => omega
  | succ n ih =>
    rw [trimLen] at passed
    split at passed
    next pad =>
      obtain earlier | rfl := Nat.lt_succ_iff_lt_or_eq.mp h
      · exact ih passed earlier
      · exact (isPad_iff _).mp pad
    next => omega

/-- R142: the loop of the trim stops at 0 or behind a character that is neither `@` nor space. -/
theorem trimLen_eq_zero_or (ch : List Byte) (n : Nat) :
    trimLen ch n = 0 ∨ ¬ isPadCode (ch.getD (trimLen ch n - 1) 0) := by
  cases stop : trimLen ch n with
  | zero => exact .inl rfl
  | succ k => exact .inr ((isPad_eq_false_iff _).mp (isPad_of_trimLen_eq stop))

/-- R142: the trim is the library's removal of the longest suffix of pads. -/
theorem take_trimLen {ch : List Byte} {n : Nat} (h : n ≤ ch.length) :
    ch.take (trimLen ch n) = (ch.take n).rdropWhile isPad := by
  induction n with
  | zero => rfl
  | succ n ih =>
    rw [List.take_succ_eq_append_getElem h, List.rdropWhile_concat, trimLen, List.getD_eq_getElem _ _ h]
    split
    · exact ih (Nat.le_of_succ_le h)
    · exact List.take_succ_eq_append_getElem h

theorem trim_eq_rdropWhile (ch : List Byte) : trim ch = ch.rdropWhile isPad := by
  rw [trim, take_trimLen (Nat.le_refl _), List.take_length]

/-- R143: the trim of a string of pads only is empty. -/
theorem trim_eq_nil {ch : List Byte} (h : ∀ c ∈ ch, isPadCode c) : trim ch = [] := by
  rw [trim_eq_rdropWhile, List.rdropWhile_eq_nil_iff]
  exact fun c hc => (isPad_iff c).mpr (h c hc)

/-- R146: the trim leaves a string that does not end in a pad. -/
theorem trim_eq_self {ch : List Byte} (h : ∀ c, ch.getLast? = some c → ¬ isPadCode c) : trim ch = ch := by
  rw [trim_eq_rdropWhile, List.rdropWhile_eq_self_iff]
  exact fun nonempty pad => h _ (List.getLast?_eq_some_getLast nonempty) ((isPad_iff _).mp pad)

/-- R144: the trim reaches only into the last part of a string, when that part is not all pads. -/
theorem trim_append {a b : List Byte} {c : Byte} (hc : c ∈ b) (notPad : ¬ isPadCode c) :
    trim (a ++ b) = a ++ trim b := by
  have kept : (b.reverse.dropWhile isPad).isEmpty = false := by
    rw [Bool.eq_false_iff, ne_eq, List.isEmpty_iff, List.dropWhile_eq_nil_iff]
    exact fun allPads => notPad ((isPad_iff c).mp (allPads c (List.mem_reverse.mpr hc)))
  rw [trim_eq_rdropWhile, trim_eq_rdropWhile, List.rdropWhile, List.rdropWhile, List.reverse_append,
    List.dropWhile_append, kept]
  simp

/-- R142: a string is its trim and a suffix of pads. -/
theorem exists_eq_trim_append (ch : List Byte) : ∃ suffix, ch = trim ch ++ suffix ∧ ∀ c ∈ suffix, isPadCode c := by
  refine ⟨ch.rtakeWhile isPad, ?_, fun c hc => (isPad_iff c).mp (List.mem_rtakeWhile_imp hc)⟩
  rw [trim_eq_rdropWhile, List.rdropWhile_append_rtakeWhile]

/-- Settles O37: the trim is the library's `rdropWhile`, and the suffix its `rtakeWhile`. -/
theorem trimRemovesTheLongestPadSuffix : Obligations.TrimRemovesTheLongestPadSuffix := by
  intro ch
  obtain ⟨suffix, whole, pads⟩ := exists_eq_trim_append ch
  exact ⟨suffix, whole, pads, fun c last => (isPad_eq_false_iff c).mp (isPad_getLast_trim last)⟩

/-- Settles O39: the trim reaches only into the part behind the pad, and removes only pads from it. -/
theorem interiorPadsAreKept : Obligations.InteriorPadsAreKept := by
  intro a b p c _ hc notPad
  refine ⟨trim b, ?kept, ?mem⟩
  case kept => simpa using trim_append (a := a ++ [p]) hc notPad
  case mem =>
    obtain ⟨suffix, whole, pads⟩ := exists_eq_trim_append b
    rw [whole] at hc
    exact (List.mem_append.mp hc).resolve_right fun behind => notPad (pads c behind)

/-! ## `GETT` (R140, R143) -/

/-- R140, R226: the phase comes before every other check of a text extraction. -/
theorem textFault_of_not_sealed {ph : Phase} (h : ph ≠ .sealed) (n o w : Nat) : textFault ph n o w = some .eState :=
  if_pos h

/-- R140, R223: a width that is no whole number of groups is `E_RANGE` in range, and out of range too. -/
theorem textFault_of_partialGroup {n o w : Nat} (h : w % 6 ≠ 0) : textFault .sealed n o w = some .eRange := by
  simp [textFault, h]

theorem exec_gett_of_fault {s : State} {offset : BitVec 16} {width : BitVec 12} {e : Code}
    (fault : textFault s.ph s.n offset.toNat width.toNat = some e) :
    exec (.gett offset width) s = .next (s.raise e) := by
  rw [exec, execGett, fault, State.orFault_some]

/-- R140, R8: the groups of a field inside the buffer are the printed sums. -/
theorem rawText_eq_map_fieldSum {m : Memory} {o n : Nat} (inRange : o + 6 * n ≤ m.length) :
    rawText m o n = (List.range n).map fun j => asc (fieldSum m (o + 6 * j) 6) := by
  rw [rawText, groups, List.map_map]
  refine List.map_congr_left fun j hj => congrArg asc (memRead_eq_fieldSum ?_)
  have := List.mem_range.mp hj
  omega

/-- R140: a text field in range ends in the trimmed characters of the printed sums. -/
theorem exec_gett_of_inRange {s : State} {offset : BitVec 16} {width : BitVec 12} (isSealed : s.ph = .sealed)
    (nonempty : width.toNat ≠ 0) (inRange : offset.toNat + width.toNat ≤ s.n) (groups : width.toNat % 6 = 0) :
    exec (.gett offset width) s =
      .next (s.done (.text (trim
        ((List.range (width.toNat / 6)).map fun j => asc (fieldSum s.buf (offset.toNat + 6 * j) 6))))) := by
  have wholeGroups : offset.toNat + 6 * (width.toNat / 6) ≤ s.buf.length := by
    rw [State.n] at inRange
    omega
  rw [(EndsNormally.gett isSealed nonempty inRange groups).exec_eq, rawText_eq_map_fieldSum wholeGroups]

/-- R140: the trim of `n` characters keeps the first `t`: all from the `t`-th on are pads, and the one before
is none. -/
theorem trim_map_range (ch : Nat → Byte) (n : Nat) :
    ∃ t, t ≤ n ∧ (t = 0 ∨ ¬ isPadCode (ch (t - 1))) ∧ (∀ j, t ≤ j → j < n → isPadCode (ch j)) ∧
      trim ((List.range n).map ch) = (List.range t).map ch := by
  have place {j : Nat} (hj : j < n) : ((List.range n).map ch).getD j 0 = ch j := by
    simp [List.getD_eq_getElem?_getD, hj]
  have le := trimLen_le ((List.range n).map ch) n
  refine ⟨trimLen ((List.range n).map ch) n, le, ?kept, fun j passed hj => ?pads, ?text⟩
  case kept =>
    refine or_iff_not_imp_left.mpr fun positive => ?_
    rw [← place (by omega)]
    exact (trimLen_eq_zero_or _ n).resolve_left positive
  case pads => exact place hj ▸ isPadCode_of_trimLen_le passed hj
  case text => rw [trim, List.length_map, List.length_range, ← List.map_take, List.take_range, Nat.min_eq_left le]

/-- Settles O35: the own word of the command, the faults of the checks, and the loop of the trim over the field's
characters. -/
theorem gettReturnsTheText : Obligations.GettReturnsTheText := by
  intro s offset width
  refine ⟨?word, ?notSealed, ?badField, ?text⟩
  case word => exact fun cw hcw => decode_of_toNat_eq rfl (hcw.trans (packWord_toNat 7 _ _).symm)
  case notSealed => exact fun notSealed => exec_gett_of_fault (textFault_of_not_sealed notSealed _ _ _)
  case badField =>
    intro isSealed bad
    apply exec_gett_of_fault
    rw [isSealed]
    obtain empty | pastEnd | partialGroup := bad
    · exact textFault_of_outOfRange (.inl empty)
    · exact textFault_of_outOfRange (.inr pastEnd)
    · exact textFault_of_partialGroup partialGroup
  case text =>
    intro isSealed nonempty inRange wholeGroups n ch
    obtain ⟨t, le, kept, pads, text⟩ := trim_map_range ch n
    refine ⟨t, le, kept, pads, ?_⟩
    rw [exec_gett_of_inRange isSealed nonempty inRange wholeGroups, ← text]
    rfl

/-- Settles O38: the characters of the values 0 and 32 are the two pads. -/
theorem allPadFieldIsTheEmptyString : Obligations.AllPadFieldIsTheEmptyString := by
  intro s offset width isSealed nonempty inRange wholeGroups padGroups
  rw [exec_gett_of_inRange isSealed nonempty inRange wholeGroups, trim_eq_nil, State.done]
  intro c hc
  obtain ⟨j, hj, rfl⟩ := List.mem_map.mp hc
  obtain atSign | space := padGroups j (List.mem_range.mp hj)
  · exact atSign ▸ .inl rfl
  · exact space ▸ .inr rfl

/-! ## What the text is made of (R145 to R149) -/

/-- Settles O40: both extractions read the groups of the field; the capacity keeps their offsets inside 16 bits. -/
theorem groupsAreWhatGetuReturns : Obligations.GroupsAreWhatGetuReturns := by
  intro s offset width inv isSealed nonempty inRange wholeGroups
  refine ⟨groups s.buf offset.toNat (width.toNat / 6), groups_length _ _ _, fun j hj => ?group,
    (EndsNormally.gett isSealed nonempty inRange wholeGroups).exec_eq⟩
  rw [groups_length] at hj
  have value : (groups s.buf offset.toNat (width.toNat / 6))[j] = memRead s.buf (offset.toNat + 6 * j) 6 := by
    simp [groups]
  have place : (BitVec.ofNat 16 (offset.toNat + 6 * j)).toNat = offset.toNat + 6 * j := by
    have := inv.n_lt
    rw [BitVec.toNat_ofNat]
    exact Nat.mod_eq_of_lt (by omega)
  have inField : (BitVec.ofNat 16 (offset.toNat + 6 * j)).toNat + (6 : BitVec 12).toNat ≤ s.n := by
    rw [place, show (6 : BitVec 12).toNat = 6 from rfl]
    omega
  rw [value]
  refine ⟨memRead_lt _ _ 6, ?_⟩
  rw [(EndsNormally.getu isSealed (by decide) inField (by decide)).exec_eq, place]
  rfl

theorem rawText_succ (m : Memory) (o n : Nat) :
    rawText m o (n + 1) = asc (memRead m o 6) :: rawText m (o + 6) n := by
  have place (j : Nat) : o + 6 * (j + 1) = o + 6 + 6 * j := by omega
  simp [rawText, groups, List.range_succ_eq_map, Function.comp_def, place]

theorem packText_length (str : List Byte) : (packText str).length = 6 * str.length := by
  simp [packText, List.length_flatMap, Nat.mul_comm]

/-- Of two bit strings in a row that stand in the buffer, each stands at its own place. -/
theorem StandsAt.of_append {l k buf : Memory} {o : Nat} (h : StandsAt (l ++ k) buf o) :
    StandsAt l buf o ∧ StandsAt k buf (o + l.length) := by
  obtain ⟨inRange, same⟩ := h
  rw [List.length_append] at inRange same
  rw [bits_add] at same
  obtain ⟨first, second⟩ := List.append_inj same (bits_length (by omega))
  exact ⟨⟨by omega, first⟩, by omega, second⟩

/-- R146: packed text that stands in the buffer is what its groups spell. -/
theorem rawText_of_standsAt {str : List Byte} {buf : Memory} {o : Nat} (codes : ∀ c ∈ str, isCharCode c)
    (h : StandsAt (packText str) buf o) : rawText buf o str.length = str := by
  induction str generalizing o with
  | nil => rfl
  | cons c str ih =>
    obtain ⟨code, laterCodes⟩ := List.forall_mem_cons.mp codes
    obtain ⟨⟨-, group⟩, later⟩ := StandsAt.of_append (l := bitsOf 6 (c.toNat % 64)) (k := packText str) h
    rw [bitsOf_length] at group later
    have value : memRead buf o 6 = c.toNat % 64 := by
      rw [memRead, group, valueOf_bitsOf]
      exact Nat.mod_mod _ _
    rw [List.length_cons, rawText_succ, value, asc_mod_of_isCharCode code, ih laterCodes later]

/-- Settles O41: the field's untrimmed text is the packed string. -/
theorem textRoundTrip : Obligations.TextRoundTrip := by
  intro s str offset width isSealed nonempty codes hwidth stands
  refine ⟨?answer, trim_eq_self⟩
  have positive := List.length_pos_iff.mpr nonempty
  have inRange : offset.toNat + width.toNat ≤ s.n := by
    rw [hwidth, ← packText_length]
    exact stands.1
  have groupCount : width.toNat / 6 = str.length := by omega
  rw [(EndsNormally.gett isSealed (by omega) inRange (by omega)).exec_eq, groupCount,
    rawText_of_standsAt codes stands, State.done]

/-- Settles O42: a text is the answer of a field in range, whose groups fit in the file. -/
theorem textResultFitsTheFile : Obligations.TextResultFitsTheFile := by
  intro s t offset width str memWf answer text
  obtain ⟨e, -, rfl⟩ | normal := exec_cases answer
  · cases text
  cases normal with
  | gett _ _ inRange =>
    injection text with text
    obtain ⟨length, codes, -⟩ := textOk_trim_rawText s.buf offset.toNat (Nat.le_refl (width.toNat / 6))
    exact text ▸ ⟨groupCount_le_tmax memWf inRange, length, codes⟩

end Sys2Proof.Machine
end

section
/-! PROOFS of the statements of 43_shift_mask_datapath.md: the append path (R162), gather, shift and mask (R163 to R165),
the sign stage (R166), the text stage (R167), and the datapath as a whole (R168 to R170). -/

namespace Sys2Proof.Machine

/-! ## The store as bits (R161) -/

@[simp] theorem storeBits_length (store : List Byte) (n : Nat) : (storeBits store n).length = n := by simp [storeBits]

theorem storeBits_congr {store store' : List Byte} {n : Nat} (h : ∀ i < n, storeBit store i = storeBit store' i) :
    storeBits store n = storeBits store' n :=
  List.map_congr_left fun i hi => h i (List.mem_range.mp hi)

/-- The buffer cut at a bit. -/
theorem storeBits_add (store : List Byte) (n m : Nat) :
    storeBits store (n + m) = storeBits store n ++ (List.range m).map fun k => storeBit store (n + k) := by
  simp [storeBits, List.range_add]

/-- R168: a field below `N` is read from the bits of the field alone, whatever `N` is. -/
theorem bits_storeBits (store : List Byte) {n o w : Nat} (h : o + w ≤ n) :
    bits (storeBits store n) o w = (List.range w).map fun k => storeBit store (o + k) := by
  obtain ⟨rest, rfl⟩ := Nat.exists_eq_add_of_le h
  simp [bits, storeBits_add]

/-- R168: a field below two lengths has one value. -/
theorem memRead_storeBits_congr (store : List Byte) {n n' o w : Nat} (h : o + w ≤ n) (h' : o + w ≤ n') :
    memRead (storeBits store n) o w = memRead (storeBits store n') o w := by
  rw [memRead, memRead, bits_storeBits store h, bits_storeBits store h']

/-- R161: the bits of a cell, its most significant one first. -/
theorem storeBit_of_cell (store : List Byte) {q j : Nat} (h : j < 8) :
    storeBit store (8 * q + j) = (cell store q).getLsbD (7 - j) := by
  rw [storeBit, Nat.mul_add_div (by decide), Nat.mul_add_mod, Nat.div_eq_of_lt h, Nat.mod_eq_of_lt h, Nat.add_zero]

/-- R161: a cell is the field of its eight bits. -/
theorem memRead_cell (store : List Byte) {n q : Nat} (h : 8 * q + 8 ≤ n) :
    memRead (storeBits store n) (8 * q) 8 = (cell store q).toNat := by
  have field : bits (storeBits store n) (8 * q) 8 = bitsOf 8 (cell store q).toNat := by
    rw [bits_storeBits store h, bitsOf_eq_map]
    exact List.map_congr_left fun j hj => storeBit_of_cell store (List.mem_range.mp hj)
  rw [memRead, field, valueOf_bitsOf]
  exact Nat.mod_eq_of_lt (cell store q).isLt

/-! ## Gather, shift and mask (R163 to R165) -/

theorem gather_succ (store : List Byte) (first nb : Nat) :
    gather store first (nb + 1) = gather store first nb * 2 ^ 8 + (cell store (first + nb)).toNat := by
  simp [gather, List.range_succ]

/-- R163: the bytes gathered are the field of all their bits. -/
theorem gather_eq_memRead (store : List Byte) {n first nb : Nat} (h : 8 * first + 8 * nb ≤ n) :
    gather store first nb = memRead (storeBits store n) (8 * first) (8 * nb) := by
  induction nb with
  | zero => rfl
  | succ nb ih =>
    rw [gather_succ, ih (by omega), Nat.mul_succ 8 nb, memRead_add (by rw [storeBits_length]; omega), ← Nat.mul_add,
      memRead_cell store (by omega)]

/-- R163: in every window over a field, shift and mask leave the field: the shift drops what follows it, the mask what
precedes it. -/
theorem gather_shift_mask (store : List Byte) {n o w first nb sh : Nat} (inRange : o + w ≤ n) (starts : 8 * first ≤ o)
    (ends : o + w + sh = 8 * first + 8 * nb) :
    (gather store first nb >>> sh) &&& (2 ^ w - 1) = memRead (storeBits store n) o w := by
  obtain ⟨before, rfl⟩ := Nat.exists_eq_add_of_le starts
  have whole : 8 * nb = before + w + sh := by omega
  rw [Nat.and_two_pow_sub_one_eq_mod, Nat.shiftRight_eq_div_pow, gather_eq_memRead store le_rfl, whole,
    ← memRead_middle (by rw [storeBits_length]), memRead_storeBits_congr store (by omega) inRange]

/-- R163: the shift amount is what stands behind the field in its last byte. -/
theorem field_shift_windowBytes {o w : Nat} (positive : 1 ≤ w) :
    o + w + (7 - (o + w - 1) % 8) = 8 * firstCell o + 8 * windowBytes o w := by
  unfold windowBytes firstCell lastCell
  omega

/-- R163: the bytes of the field itself are such a window. -/
theorem shiftMask_eq_memRead (store : List Byte) {n o w : Nat} (positive : 1 ≤ w) (inRange : o + w ≤ n) :
    shiftMask store o w = memRead (storeBits store n) o w :=
  gather_shift_mask store inRange (Nat.mul_div_le o 8) (field_shift_windowBytes positive)

/-- A byte joined on the right of a vector. -/
theorem toNat_append_byte {k : Nat} (x : BitVec k) (c : Byte) : (x ++ c).toNat = x.toNat * 2 ^ 8 + c.toNat := by
  rw [BitVec.toNat_append, ← Nat.shiftLeft_add_eq_or_of_lt c.isLt, Nat.shiftLeft_eq]

/-- R165: the fixed window holds the five bytes that the gather of five bytes gives. -/
theorem window40_toNat (store : List Byte) (k : Nat) : (window40 store k).toNat = gather store k 5 := by
  simp only [window40, toNat_append_byte, gather_succ]
  simp [gather]

/-- R165: so are the fixed five bytes; what stands behind the field's last byte is shifted out. -/
theorem shiftMask40_toNat (store : List Byte) {n o w : Nat} (atMost32 : w ≤ 32) (inRange : o + w ≤ n) :
    (shiftMask40 store o w).toNat = memRead (storeBits store n) o w := by
  have mask : 2 ^ w - 1 < 2 ^ 40 := by
    have := Nat.pow_le_pow_right (n := 2) (by decide) atMost32
    omega
  rw [shiftMask40, BitVec.toNat_and, BitVec.toNat_ushiftRight, window40_toNat, BitVec.toNat_ofNat, Nat.mod_eq_of_lt mask]
  exact gather_shift_mask store inRange (Nat.mul_div_le o 8) (by unfold firstCell; omega)

/-- Settles O55: both windows are windows over the field; the rest is arithmetic of bytes. -/
theorem shiftAndMaskIsTheField : Obligations.ShiftAndMaskIsTheField := by
  intro store n o w positive atMost32 inRange
  have shift := field_shift_windowBytes (o := o) positive
  refine ⟨shiftMask_eq_memRead store positive inRange, ?atMost5, ?atMost2, ?oneByte, ?shiftForms,
    shiftMask40_toNat store atMost32 inRange, by omega, by omega, fun c fits => ?insideTheStore⟩
  case oneByte =>
    unfold windowBytes firstCell lastCell
    omega
  case insideTheStore =>
    unfold firstCell storeSize
    omega
  all_goals
    unfold firstCell at shift
    omega

/-! ## The append path (R162) -/

theorem cell_set {store : List Byte} {k : Nat} (h : k < store.length) (c : Byte) (q : Nat) :
    cell (store.set k c) q = if q = k then c else cell store q := by
  by_cases hq : q = k
  · simp [cell, hq, h]
  · simp [cell, List.getD_eq_getElem?_getD, List.getElem?_set_ne (Ne.symm hq), hq]

/-- R162: bit `j` of the window, counted from its first, is bit `j` of the three cells. -/
theorem getLsbD_window24 (store : List Byte) (k : Nat) {j : Nat} (h : j < 24) :
    (window24 store k).getLsbD (23 - j) = storeBit store (8 * k + j) := by
  have inCell {b q : Nat} (hb : b < 8) (place : 8 * k + j = 8 * q + b) :
      storeBit store (8 * k + j) = (cell store q).getLsbD (7 - b) := place ▸ storeBit_of_cell store hb
  rw [window24, BitVec.getLsbD_append, BitVec.getLsbD_append]
  split_ifs with third second
  · rw [inCell (b := j - 16) (q := k + 2) (by omega) (by omega)]
    congr 1
    omega
  · rw [inCell (b := j - 8) (q := k + 1) (by omega) (by omega)]
    congr 1
    omega
  · rw [inCell (b := j) (q := k) (by omega) rfl]
    congr 1
    omega

/-- R162: the three cells written back are the bytes of the window. -/
theorem cell_writeWindow {store : List Byte} {k b : Nat} (room : k + 2 < store.length) (win : BitVec 24) (h : b < 3) :
    cell (writeWindow store k win) (k + b) = win.extractLsb' (16 - 8 * b) 8 := by
  rw [writeWindow, cell_set (by simpa using room), cell_set (by simp; omega), cell_set (by omega)]
  match b with
  | 0 | 1 | 2 => simp

/-- R162: every other cell is left. -/
theorem cell_writeWindow_of_outside {store : List Byte} {k q : Nat} (room : k + 2 < store.length) (win : BitVec 24)
    (h : q < k ∨ k + 2 < q) : cell (writeWindow store k win) q = cell store q := by
  rw [writeWindow, cell_set (by simpa using room), cell_set (by simp; omega), cell_set (by omega), if_neg (by omega),
    if_neg (by omega), if_neg (by omega)]

/-- R162: the bits of the store after the window is written back. -/
theorem storeBit_writeWindow {store : List Byte} {k : Nat} (room : k + 2 < store.length) (win : BitVec 24) (i : Nat) :
    storeBit (writeWindow store k win) i =
      if 8 * k ≤ i ∧ i < 8 * k + 24 then win.getLsbD (23 - (i - 8 * k)) else storeBit store i := by
  split
  next inside =>
    rw [storeBit, ← Nat.add_sub_of_le (show k ≤ i / 8 by omega), cell_writeWindow room win (by omega),
      BitVec.getLsbD_extractLsb', decide_eq_true (by omega), Bool.true_and]
    congr 1
    omega
  next outside => rw [storeBit, cell_writeWindow_of_outside room win (by omega), storeBit]

/-- R162: the merge puts the `cnt` bits of `d` behind the first `r` bits of the window and keeps the others. -/
theorem getLsbD_mergeWindow (win : BitVec 24) {r cnt d j : Nat} (fits : r + cnt ≤ 24) (bound : d < 2 ^ cnt)
    (h : j < 24) :
    (mergeWindow win r cnt d).getLsbD (23 - j) =
      if r ≤ j ∧ j < r + cnt then d.testBit (r + cnt - 1 - j) else win.getLsbD (23 - j) := by
  simp only [mergeWindow, BitVec.getLsbD_or, BitVec.getLsbD_and, BitVec.getLsbD_not, BitVec.getLsbD_shiftLeft,
    BitVec.getLsbD_ofNat, Nat.testBit_two_pow_sub_one]
  have inWindow : 23 - j < 24 := by omega
  obtain before | inside | behind : j < r ∨ (r ≤ j ∧ j < r + cnt) ∨ r + cnt ≤ j := by omega
  · have shifted : ¬ 23 - j < 24 - r - cnt := by omega
    have high : cnt ≤ 23 - j - (24 - r - cnt) := by omega
    have noBit := Nat.testBit_lt_two_pow (bound.trans_le (Nat.pow_le_pow_right (by decide) high))
    simp [inWindow, shifted, high.not_gt, noBit, before.not_ge]
  · have shifted : ¬ 23 - j < 24 - r - cnt := by omega
    have place : 23 - j - (24 - r - cnt) = r + cnt - 1 - j := by omega
    have low : r + cnt - 1 - j < cnt := by omega
    have low24 : r + cnt - 1 - j < 24 := by omega
    simp [inWindow, shifted, place, low, low24, inside]
  · have kept : 23 - j < 24 - r - cnt := by omega
    simp [inWindow, kept, behind]

/-- R162: an append writes the `cnt` bits of `d` at the addresses from `N` on, the first the most significant, and
leaves every other bit of the store, padding included. -/
theorem storeBit_appendPath {store : List Byte} {n cnt d : Nat} (room : n / 8 + 2 < store.length) (atMost16 : cnt ≤ 16)
    (bound : d < 2 ^ cnt) (i : Nat) :
    storeBit (appendPath store n cnt d) i =
      if n ≤ i ∧ i < n + cnt then d.testBit (n + cnt - 1 - i) else storeBit store i := by
  rw [appendPath, storeBit_writeWindow room]
  split
  next inWindow =>
    rw [getLsbD_mergeWindow _ (by omega) bound (by omega), getLsbD_window24 store _ (by omega),
      Nat.add_sub_of_le inWindow.1]
    refine if_congr (by omega) ?_ rfl
    congr 1
    omega
  next => rw [if_neg (by omega)]

theorem appendPath_length (store : List Byte) (n cnt d : Nat) : (appendPath store n cnt d).length = store.length := by
  simp [appendPath, writeWindow]

/-- R161: the window of an append that fits is inside the store. -/
theorem appendWindow_lt_storeSize {c : Config} {n cnt : Nat} (positive : 1 ≤ cnt) (fits : n + cnt ≤ c.nmax) :
    n / 8 + 2 < storeSize c := by
  unfold storeSize
  omega

/-- Settles O54: below `N` the append leaves the bits, and from `N` on it writes those of `d`. -/
theorem appendPathIsTheAppend : Obligations.AppendPathIsTheAppend := by
  intro c store n cnt d size positive atMost16 fits bound
  have bit := storeBit_appendPath (size ▸ appendWindow_lt_storeSize positive fits) atMost16 bound
  refine ⟨?_, appendPath_length store n cnt d⟩
  have old : storeBits (appendPath store n cnt d) n = storeBits store n :=
    storeBits_congr fun i hi => (bit i).trans (if_neg (by omega))
  rw [storeBits_add, old, memWrite, bitsOf_eq_map]
  congr 1
  refine List.map_congr_left fun k hk => ?_
  have new := List.mem_range.mp hk
  rw [bit, if_pos (by omega)]
  congr 1
  omega

/-! ## The sign stage (R166) -/

/-- R166: the bit that the sign stage copies says that the value is negative. -/
theorem testBit_pred_eq {w v : Nat} (positive : 1 ≤ w) (h : v < 2 ^ w) :
    v.testBit (w - 1) = decide (2 ^ (w - 1) ≤ v) := by
  rw [← msb_ofNat_of_lt h, BitVec.msb_eq_getLsbD_last, BitVec.getLsbD_ofNat, decide_eq_true (by omega), Bool.true_and]

/-- R166: filling the bits from `w` on adds their weight. -/
theorem or_fill_eq_add {w v : Nat} (atMost32 : w ≤ 32) (h : v < 2 ^ w) :
    v ||| (2 ^ 32 - 2 ^ w) = v + 2 ^ 32 - 2 ^ w := by
  have weight : 2 ^ w * 2 ^ (32 - w) = 2 ^ 32 := pow_mul_pow_sub 2 atMost32
  have fill : 2 ^ 32 - 2 ^ w = 2 ^ w * (2 ^ (32 - w) - 1) := by rw [Nat.mul_sub_one, weight]
  rw [Nat.add_sub_assoc (Nat.pow_le_pow_right (by decide) atMost32), fill, Nat.or_comm,
    ← Nat.two_pow_add_eq_or_of_lt h, Nat.add_comm]

/-- R166: the sign stage is the sign extension. -/
theorem signStage_eq_sext32 {w v : Nat} (positive : 1 ≤ w) (atMost32 : w ≤ 32) (h : v < 2 ^ w) :
    signStage v w = sext32 v w := by
  obtain ⟨nonnegative, negative, -⟩ := signExtensionLaw w v positive atMost32 (Nat.le_pred_of_lt h)
  rw [signStage, testBit_pred_eq positive h]
  by_cases sign : 2 ^ (w - 1) ≤ v
  · rw [if_pos (decide_eq_true sign), negative sign, zext32, ← or_fill_eq_add atMost32 h, BitVec.ofNat_or]
  · rw [if_neg (by simpa using sign), nonnegative (Nat.lt_of_not_le sign)]
    exact BitVec.or_zero

/-- The difference of two vectors is the vector of the numbers' difference. -/
theorem ofNat_sub_ofNat (x m : Nat) : BitVec.ofNat 32 x - BitVec.ofNat 32 m = BitVec.ofInt 32 ((x : Int) - m) := by
  apply BitVec.eq_of_toInt_eq
  rw [← BitVec.ofInt_natCast, ← BitVec.ofInt_natCast, BitVec.toInt_sub, BitVec.toInt_ofInt, BitVec.toInt_ofInt,
    BitVec.toInt_ofInt, Int.bmod_sub_bmod, Int.sub_bmod_bmod]

/-- R166: so is the exclusive-or form. -/
theorem signStageXor_eq_sext32 {w v : Nat} (positive : 1 ≤ w) (h : v < 2 ^ w) : signStageXor v w = sext32 v w := by
  rw [sext32, sval_eq_xor_sub positive h, signStageXor, ← BitVec.ofNat_xor, ofNat_sub_ofNat]
  simp

/-- Settles O56: the fill adds the weight of the sign's copies, and the exclusive-or form is that of R131. -/
theorem signStageIsSignExtension : Obligations.SignStageIsSignExtension := fun _ _ positive atMost32 h =>
  ⟨signStage_eq_sext32 positive atMost32 h, signStageXor_eq_sext32 positive h⟩

/-! ## The text stage (R167) -/

/-- R167, R141: the wiring is the alphabet. -/
theorem wireChar_ofNat {c : Nat} (h : c < 64) : wireChar (BitVec.ofNat 6 c) = asc c := by
  have table : ∀ c : Fin 64, wireChar (BitVec.ofNat 6 c.val) = asc c.val := by decide
  exact table ⟨c, h⟩

theorem groupChar_eq (store : List Byte) {n offset j : Nat} (inRange : offset + 6 * j + 6 ≤ n) :
    groupChar store offset j = asc (memRead (storeBits store n) (offset + 6 * j) 6) := by
  rw [groupChar, shiftMask_eq_memRead store (by decide) inRange, wireChar_ofNat (memRead_lt _ _ 6)]

theorem rawText_concat (m : Memory) (o n : Nat) :
    rawText m o (n + 1) = rawText m o n ++ [asc (memRead m (o + 6 * n) 6)] := by
  simp [rawText, groups, List.range_succ]

/-- R142: the trim of a string with one more character. -/
theorem trim_concat (ch : List Byte) (c : Byte) : trim (ch ++ [c]) = if isPad c then trim ch else ch ++ [c] := by
  rw [trim_eq_rdropWhile, trim_eq_rdropWhile, List.rdropWhile_concat]

/-- R167, R142: the counter follows exactly the characters the trim keeps. -/
theorem ne_padCodes_iff (c : Byte) : c ≠ 0x40 ∧ c ≠ 0x20 ↔ ¬ isPad c = true := by
  rw [isPad_iff, isPadCode, not_or]

/-- R167: the loop has written the untrimmed text, and its counter is the length of the trimmed one. -/
theorem textLoop_eq (store : List Byte) {n offset k : Nat} (inRange : offset + 6 * k ≤ n) :
    textLoop store offset k =
      (rawText (storeBits store n) offset k, (trim (rawText (storeBits store n) offset k)).length) := by
  induction k with
  | zero => rfl
  | succ k ih =>
    rw [textLoop, ih (by omega), groupChar_eq store (by omega), rawText_concat, trim_concat]
    generalize asc _ = c
    by_cases pad : isPad c = true
    · rw [if_pos pad, if_neg (fun h => (ne_padCodes_iff c).mp h pad)]
    · rw [if_neg pad, if_pos ((ne_padCodes_iff c).mpr pad), List.length_append, rawText_length, List.length_singleton]

/-- R167: the first `t` characters written are the trimmed text, with which the untrimmed one begins. -/
theorem textStage_eq_trim (store : List Byte) {n offset k : Nat} (inRange : offset + 6 * k ≤ n) :
    textStage store offset k = trim (rawText (storeBits store n) offset k) := by
  rw [textStage, textLoop_eq store inRange]
  exact (List.prefix_iff_eq_take.mp (List.take_prefix _ _)).symm

/-- Settles O57: the loop's counter is the length of the trimmed text. -/
theorem textStageIsTheTrimmedText : Obligations.TextStageIsTheTrimmedText := fun store _ _ _ inRange =>
  textStage_eq_trim store inRange

/-! ## The check stage (R170) -/

/-- R170: the 17-bit adder loses no carry. -/
theorem offEnd_iff (b : BitVec 16) (a : BitVec 12) (n : BitVec 16) :
    offEnd b a n = true ↔ n.toNat < b.toNat + a.toNat := by
  simp only [offEnd, BitVec.ult_iff_lt]
  bv_omega

theorem overCapacity_iff (n : BitVec 16) (a : BitVec 12) {nmax : Nat} (h : nmax ≤ 65535) :
    overCapacity n a nmax = true ↔ nmax < n.toNat + a.toNat := by
  simp only [overCapacity, BitVec.ult_iff_lt]
  bv_omega

theorem DpState.abstract_ph (d : DpState) : d.abstract.ph = d.ph := rfl

theorem DpState.abstract_n (d : DpState) : d.abstract.n = d.n.toNat := storeBits_length _ _

/-- R170, R226: the check stage of an `APP` makes the block's checks. -/
theorem checkStage_app {d : DpState} (wf : d.Wf) (cnt : BitVec 12) (data : BitVec 16) :
    checkStage (.app cnt data) d = appFault d.abstract.cfg.nmax d.abstract.ph d.abstract.n cnt.toNat := by
  simp only [checkStage, appFault, overCapacity_iff _ _ wf.1.2, DpState.abstract_n]
  rfl

section
variable (d : DpState) (offset : BitVec 16) (width : BitVec 12)

theorem width_eq_zero_iff : width = 0 ↔ width.toNat = 0 := BitVec.toNat_inj.symm

/-- R170, R226: the check stage of an integer extraction. -/
theorem checkStage_getu :
    checkStage (.getu offset width) d = intFault d.abstract.ph d.abstract.n offset.toNat width.toNat := by
  simp only [checkStage, intFault, offEnd_iff, width_eq_zero_iff, DpState.abstract_n]
  rfl

theorem checkStage_gets :
    checkStage (.gets offset width) d = intFault d.abstract.ph d.abstract.n offset.toNat width.toNat :=
  checkStage_getu d offset width

/-- R170, R226: the check stage of a text extraction, where the two range checks are one. -/
theorem checkStage_gett :
    checkStage (.gett offset width) d = textFault d.abstract.ph d.abstract.n offset.toNat width.toNat := by
  simp only [checkStage, textFault, offEnd_iff, width_eq_zero_iff, DpState.abstract_n, ← or_assoc, ite_or]
  rfl

end

/-! ## The stages of a command against its rule (R169, R170) -/

/-- R170: a word ends in a fault with nothing else changed, or in the last stages of its command. -/
theorem dpDeliver_cases (cw : Word) (d : DpState) :
    (∃ why, decode cw = .illegal why ∧ dpDeliver cw d = { d with code := .eIllegal, result := .none }) ∨
    (∃ i e, decode cw = .command i ∧ checkStage i d = some e ∧
      dpDeliver cw d = { d with code := e, result := .none }) ∨
    ∃ i, decode cw = .command i ∧ checkStage i d = none ∧ dpDeliver cw d = finishStages i d := by
  cases dec : decode cw with
  | illegal why => exact .inl ⟨why, rfl, by rw [dpDeliver, dec]⟩
  | command i =>
    cases check : checkStage i d with
    | some e => exact .inr (.inl ⟨i, e, rfl, check, by simp only [dpDeliver, dec, check]⟩)
    | none => exact .inr (.inr ⟨i, rfl, check, by simp only [dpDeliver, dec, check]⟩)

theorem next_orFault_of_some {s t : State} {f : Option Code} {e : Code} (h : f = some e) :
    (.next (s.orFault f t) : Host.Outcome State Fault Refusal) = .next (s.raise e) :=
  h ▸ rfl

/-- R169: where the check stage stops a command, the block stops it with the same code. -/
theorem exec_abstract_of_fault {d : DpState} (wf : d.Wf) {i : Instr} {e : Code} (h : checkStage i d = some e) :
    exec i d.abstract = .next (d.abstract.raise e) := by
  cases i with
  | clr => cases h
  | app cnt data => exact next_orFault_of_some ((checkStage_app wf cnt data).symm.trans h)
  | sealBuf | len => exact next_orFault_of_some h
  | getu offset width => exact next_orFault_of_some ((checkStage_getu d offset width).symm.trans h)
  | gets offset width => exact next_orFault_of_some ((checkStage_gets d offset width).symm.trans h)
  | gett offset width => exact next_orFault_of_some ((checkStage_gett d offset width).symm.trans h)

section
variable {d : DpState} {cnt : BitVec 12} {data : BitVec 16}

/-- R162, R22: an append that fits keeps `N` inside its 16 bits. -/
theorem toNat_n_add_cnt (wf : d.Wf) (fits : d.n.toNat + cnt.toNat ≤ d.cfg.nmax) :
    (d.n + cnt.setWidth 16).toNat = d.n.toNat + cnt.toNat := by
  have capacity : d.cfg.nmax ≤ 65535 := wf.1.2
  bv_omega

/-- R162: the append path of an `APP` that fits writes the buffer the block writes. -/
theorem abstract_buf_finishStages_app (wf : d.Wf) (legal : (Instr.app cnt data).wf = true)
    (fits : d.n.toNat + cnt.toNat ≤ d.cfg.nmax) :
    (finishStages (.app cnt data) d).abstract.buf =
      memWrite d.abstract.buf cnt.toNat (data.toNat % 2 ^ cnt.toNat) := by
  obtain ⟨positive, atMost16⟩ := (cntLegal_iff cnt).mp legal
  exact (congrArg _ (toNat_n_add_cnt wf fits)).trans
    (appendPathIsTheAppend d.cfg d.store _ _ _ wf.2.2 positive atMost16 fits (Nat.mod_lt _ (Nat.two_pow_pos _))).1

end

/-- R163, R169: a field below `N` has the value it has in the block. -/
theorem shiftMask_eq_memRead_abstract {d : DpState} {o w : Nat} (nonempty : w ≠ 0) (inRange : o + w ≤ d.abstract.n) :
    shiftMask d.store o w = memRead d.abstract.buf o w :=
  shiftMask_eq_memRead d.store (Nat.pos_of_ne_zero nonempty) (d.abstract_n ▸ inRange)

/-- R169: a command that passes the check stage ends in the block's effect. -/
theorem endsNormally_finishStages {d : DpState} (wf : d.Wf) {i : Instr} (legal : i.wf = true)
    (h : checkStage i d = none) : EndsNormally d.abstract i (finishStages i d).abstract := by
  cases i with
  | clr => exact .clr
  | app cnt data =>
    rw [checkStage_app wf, appFault_none_iff] at h
    obtain ⟨loading, fits⟩ := h
    have effect := EndsNormally.app (data := data) loading fits
    rwa [← abstract_buf_finishStages_app wf legal (d.abstract_n ▸ fits)] at effect
  | sealBuf => exact .sealBuf (by simpa [checkStage, DpState.abstract_ph] using h)
  | len =>
    have effect := EndsNormally.len (s := d.abstract) (by simpa [checkStage, DpState.abstract_ph] using h)
    rwa [DpState.abstract_n, zext32, BitVec.ofNat_toNat] at effect
  | getu offset width =>
    rw [checkStage_getu, intFault_none_iff] at h
    obtain ⟨isSealed, nonempty, inRange, narrow⟩ := h
    have effect := EndsNormally.getu isSealed nonempty inRange narrow
    rwa [← shiftMask_eq_memRead_abstract nonempty inRange] at effect
  | gets offset width =>
    rw [checkStage_gets, intFault_none_iff] at h
    obtain ⟨isSealed, nonempty, inRange, narrow⟩ := h
    have effect := EndsNormally.gets isSealed nonempty inRange narrow
    rwa [← signStage_eq_sext32 (Nat.pos_of_ne_zero nonempty) narrow (memRead_lt _ _ _),
      ← shiftMask_eq_memRead_abstract nonempty inRange] at effect
  | gett offset width =>
    rw [checkStage_gett, textFault_none_iff] at h
    obtain ⟨isSealed, nonempty, inRange, wholeGroups⟩ := h
    have text : textStage d.store offset.toNat (width.toNat / 6) =
        trim (rawText d.abstract.buf offset.toNat (width.toNat / 6)) :=
      textStage_eq_trim d.store (by rw [DpState.abstract_n] at inRange; omega)
    have effect := EndsNormally.gett isSealed nonempty inRange wholeGroups
    rwa [← text] at effect

/-- R161, R22: a command that passes the check stage keeps the datapath well formed. -/
theorem wf_finishStages {d : DpState} (wf : d.Wf) {i : Instr} (h : checkStage i d = none) : (finishStages i d).Wf := by
  have ⟨cfgWf, nWf, size⟩ := wf
  cases i with
  | clr => exact ⟨cfgWf, Nat.zero_le _, size⟩
  | app cnt data =>
    rw [checkStage_app wf, appFault_none_iff, DpState.abstract_n] at h
    exact ⟨cfgWf, (toNat_n_add_cnt wf h.2).trans_le h.2, (appendPath_length _ _ _ _).trans size⟩
  | sealBuf | len | getu | gets | gett => exact ⟨cfgWf, nWf, size⟩

/-- R169: the datapath answers a word as the block does, whether it is illegal, stopped by a check, or run. -/
theorem deliver_abstract {d : DpState} (wf : d.Wf) (cw : Word) :
    deliver cw d.abstract = .next (dpDeliver cw d).abstract := by
  obtain ⟨why, dec, answer⟩ | ⟨i, e, dec, check, answer⟩ | ⟨i, dec, check, answer⟩ := dpDeliver_cases cw d
  · rw [answer, deliver, dec]
    rfl
  · rw [answer, deliver_of_command dec]
    exact exec_abstract_of_fault wf check
  · rw [answer, deliver_of_command dec]
    exact (endsNormally_finishStages wf (wf_of_decode dec) check).exec_eq

/-- R169: every word keeps the datapath well formed; a fault writes `CODE` and `R` only. -/
theorem wf_dpDeliver {d : DpState} (wf : d.Wf) (cw : Word) : (dpDeliver cw d).Wf := by
  obtain ⟨_, _, answer⟩ | ⟨_, _, _, _, answer⟩ | ⟨_, _, check, answer⟩ := dpDeliver_cases cw d
  · exact answer ▸ wf
  · exact answer ▸ wf
  · exact answer ▸ wf_finishStages wf check

/-- Settles O58: by what the check stage answers; a reset leaves `N = 0`, and so no bit of the store to read. -/
theorem datapathRefinesTheBlock : Obligations.DatapathRefinesTheBlock := fun _ cw wf =>
  ⟨deliver_abstract wf cw, wf_dpDeliver wf cw, rfl, wf.1, Nat.zero_le _, wf.2.2⟩

/-- Settles O59: the two datapaths stand for one state of the block, which answers the word in one way. -/
theorem paddingIsUnobservable : Obligations.PaddingIsUnobservable := by
  intro d e cw dWf eWf cfg ph n code result bitsBelowN
  have same : e.abstract = d.abstract := by
    simp only [DpState.abstract, cfg, ph, n, code, result, storeBits_congr bitsBelowN]
  have answers := deliver_abstract eWf cw
  rw [same, deliver_abstract dWf cw] at answers
  injection answers with answers
  exact answers.symm

end Sys2Proof.Machine
end

section
/-! PROOFS of the statements of 44_client_layouts.md: the words the rows of the layouts print, and how the rows tile the
payload (R182, R186, R191). -/

namespace Sys2Proof.Machine

/-- R75: an extraction is well formed for every operand. -/
theorem wf_fieldInstr (op : FieldOp) (offset width : Nat) : (fieldInstr op offset width).wf = true := by
  cases op with
  | unsigned | signed | text => rfl

/-- R80: an extraction has no ignored bits. -/
@[simp] theorem canon_fieldInstr (op : FieldOp) (offset width : Nat) :
    (fieldInstr op offset width).canon = fieldInstr op offset width := by
  cases op with
  | unsigned | signed | text => rfl

/-- R86: the word of a row's command decodes to that command, whatever the row. -/
theorem LayoutRow.decode_encode_instr (r : LayoutRow) : decode (encode r.instr) = .command r.instr := by
  rw [LayoutRow.instr, decode_encode (wf_fieldInstr ..), canon_fieldInstr]

/-- R182, R186, R191: the printed words are the encoder's. -/
theorem encode_instr_of_mem_layouts :
    ∀ r ∈ sharedLayout ++ typeALayout ++ typeBLayout, encode r.instr = r.word := by
  decide

/-- Settles O60: the printed word is the encoder's, row by row, and so decodes by `LayoutRow.decode_encode_instr`; in each
layout every row begins where the row before it ends. -/
theorem layoutRowsSpellTheirWords : Obligations.LayoutRowsSpellTheirWords := by
  refine ⟨fun r mem => ?words, ?tiling⟩
  case words =>
    have word := encode_instr_of_mem_layouts r mem
    exact ⟨word, word ▸ r.decode_encode_instr⟩
  case tiling => exact ⟨rfl, rfl, rfl, rfl, rfl, rfl⟩

end Sys2Proof.Machine
end

section
/-! PROOFS of the statements of 60_exceptions.md: which code a command ends in (R221 to R228), that a fault writes
`CODE` and `R` only (R220, R222), and that it leaves no trace (R232). -/

namespace Sys2Proof.Machine

/-! ## The fault of a command's checks (R226) -/

/-- R226: the fault the checks of a command end it in, if any. -/
def commandFault (i : Instr) (s : State) : Option Code :=
  match i with
  | .clr => none
  | .app cnt _ => appFault s.cfg.nmax s.ph s.n cnt.toNat
  | .sealBuf => if s.ph ≠ .loading then some .eState else none
  | .len => if s.ph ≠ .sealed then some .eState else none
  | .getu offset width => intFault s.ph s.n offset.toNat width.toNat
  | .gets offset width => intFault s.ph s.n offset.toNat width.toNat
  | .gett offset width => textFault s.ph s.n offset.toNat width.toNat

/-- R220: every command ends in the fault of its checks, or else in a normal effect. -/
theorem exec_eq_orFault (i : Instr) (s : State) :
    ∃ u, u.code = .ok ∧ exec i s = .next (s.orFault (commandFault i s) u) := by
  cases i with
  | clr | app | sealBuf | len | getu | gets | gett => exact ⟨_, rfl, rfl⟩

theorem exec_answers (i : Instr) (s : State) : ∃ t, exec i s = .next t := by
  obtain ⟨u, -, answer⟩ := exec_eq_orFault i s
  exact ⟨_, answer⟩

/-- R222: a command its checks stop writes `CODE` and `R` only. -/
theorem exec_of_commandFault {i : Instr} {s : State} {e : Code} (fault : commandFault i s = some e) :
    exec i s = .next (s.raise e) := by
  obtain ⟨u, -, answer⟩ := exec_eq_orFault i s
  rw [answer, fault, State.orFault_some]

/-- R220: a command reports the error `e` exactly when its checks do. -/
theorem exec_code_eq_iff {i : Instr} {s t : State} {e : Code} (error : e ≠ .ok) (h : exec i s = .next t) :
    t.code = e ↔ commandFault i s = some e := by
  obtain ⟨u, ended, answer⟩ := exec_eq_orFault i s
  exact orFault_code_eq_iff ended error (answer.symm.trans h)

/-! ## Each check, code by code -/

theorem Phase.ne_loading_iff (ph : Phase) : ph ≠ .loading ↔ ph = .sealed := by
  cases ph <;> simp

theorem Phase.ne_sealed_iff (ph : Phase) : ph ≠ .sealed ↔ ph = .loading := by
  cases ph <;> simp

/-- R101, R228: the two faults of an `APP`. -/
theorem appFault_eq_some_iff (nmax : Nat) (ph : Phase) (n cnt : Nat) (e : Code) :
    appFault nmax ph n cnt = some e ↔
      (e = .eState ∧ ph = .sealed) ∨ (e = .eCapacity ∧ ph = .loading ∧ nmax < n + cnt) := by
  cases ph with
  | sealed => simp [appFault, eq_comm]
  | loading => by_cases tooLong : nmax < n + cnt <;> simp [appFault, tooLong, eq_comm]

/-- R121, R223, R226: the three faults of an integer extraction. -/
theorem intFault_eq_some_iff (ph : Phase) (n o w : Nat) (e : Code) :
    intFault ph n o w = some e ↔
      (e = .eState ∧ ph = .loading) ∨
      (e = .eRange ∧ ph = .sealed ∧ (w = 0 ∨ n < o + w)) ∨
      (e = .eWidth ∧ ph = .sealed ∧ ¬ (w = 0 ∨ n < o + w) ∧ Config.wmax < w) := by
  cases ph with
  | loading => simp [intFault, eq_comm]
  | sealed =>
    by_cases outOfRange : w = 0 ∨ n < o + w
    · simp [intFault_of_outOfRange outOfRange, outOfRange, eq_comm]
    · by_cases wide : Config.wmax < w <;> simp [intFault, outOfRange, wide, eq_comm]

/-- R140, R223: the two faults of a text extraction. -/
theorem textFault_eq_some_iff (ph : Phase) (n o w : Nat) (e : Code) :
    textFault ph n o w = some e ↔
      (e = .eState ∧ ph = .loading) ∨
      (e = .eRange ∧ ph = .sealed ∧ (w = 0 ∨ n < o + w ∨ w % 6 ≠ 0)) := by
  cases ph with
  | loading => simp [textFault, eq_comm]
  | sealed =>
    rw [← or_assoc]
    by_cases outOfRange : w = 0 ∨ n < o + w
    · simp [textFault_of_outOfRange outOfRange, outOfRange, eq_comm]
    · by_cases partialGroup : w % 6 ≠ 0 <;> simp [textFault, outOfRange, partialGroup, eq_comm]

/-! ## Illegal words (R224) -/

/-- R78, R224: an illegal word ends in `E_ILLEGAL`, whatever the state. -/
theorem deliver_of_illegal {cw : Word} (h : ∃ why, decode cw = .illegal why) (s : State) :
    deliver cw s = .next (s.raise .eIllegal) := by
  obtain ⟨why, dec⟩ := h
  rw [deliver, dec]

/-- Settles O7: the field condition is the decoder's; an operand bit in `[27:0]` is one of `a` or of `b`. -/
theorem illegalWordsOnlyReport : Obligations.IllegalWordsOnlyReport := by
  intro s cw rest htodo fields
  have aOrB : cw.toNat % 2 ^ 28 ≠ 0 → cw.toNat / 2 ^ 16 % 2 ^ 12 ≠ 0 ∨ cw.toNat % 2 ^ 16 ≠ 0 := by omega
  have illegal : IllegalFields (cw.toNat / 2 ^ 28) (cw.toNat / 2 ^ 16 % 2 ^ 12) (cw.toNat % 2 ^ 16) :=
    fields.imp_right (Or.imp_right (Or.imp_left (And.imp_right aOrB)))
  rw [step_write htodo]
  exact deliver_of_illegal (decode_illegal_of_fields illegal) _

/-! ## Which command raises which code (R221 to R228) -/

/-- Settles O31: by the range faults of the checks, the phase being `SEALED`. -/
theorem rangeContractExactly : Obligations.RangeContractExactly := by
  intro s offset width isSealed
  obtain ⟨t, getu⟩ := exec_answers (.getu offset width) s
  obtain ⟨u, gets⟩ := exec_answers (.gets offset width) s
  obtain ⟨v, gett⟩ := exec_answers (.gett offset width) s
  have int : intFault s.ph s.n offset.toNat width.toNat = some .eRange ↔
      width.toNat = 0 ∨ s.n < offset.toNat + width.toNat := by simp [intFault_eq_some_iff, isSealed]
  have text : textFault s.ph s.n offset.toNat width.toNat = some .eRange ↔
      width.toNat = 0 ∨ s.n < offset.toNat + width.toNat ∨ width.toNat % 6 ≠ 0 := by
    simp [textFault_eq_some_iff, isSealed]
  have notOk : Code.eRange ≠ .ok := by decide
  exact ⟨t, u, v, getu, gets, gett, (exec_code_eq_iff notOk getu).trans int, (exec_code_eq_iff notOk gets).trans int,
    (exec_code_eq_iff notOk gett).trans text⟩

/-- Settles O50: `E_STATE` is the first fault of each command's checks but for `CLR`, which has none. -/
theorem phaseTable : Obligations.PhaseTable := by
  intro i s
  obtain ⟨t, answer⟩ := exec_answers i s
  have reported := exec_code_eq_iff (e := .eState) (by decide) answer
  refine ⟨t, answer, reported.trans ?table, fun fault => ?frame⟩
  case table =>
    cases i with
    | clr => simp [commandFault]
    | app => simp [commandFault, appFault_eq_some_iff]
    | sealBuf => simp [commandFault, Phase.ne_loading_iff]
    | len => simp [commandFault, Phase.ne_sealed_iff]
    | getu | gets => simp [commandFault, intFault_eq_some_iff]
    | gett => simp [commandFault, textFault_eq_some_iff]
  case frame =>
    injection answer.symm.trans (exec_of_commandFault (reported.mp fault))

/-- R221: the codes each command's checks raise. -/
theorem commandFault_eq_some_cases {i : Instr} {s : State} {e : Code} (h : commandFault i s = some e) :
    e = .eState ∨
    (e = .eCapacity ∧ ∃ cnt data, i = .app cnt data ∧ s.ph = .loading ∧ s.cfg.nmax < s.n + cnt.toNat) ∨
    (e = .eRange ∧ ∃ o w, i = .getu o w ∨ i = .gets o w ∨ i = .gett o w) ∨
    (e = .eWidth ∧ ∃ o w, i = .getu o w ∨ i = .gets o w) := by
  cases i with
  | clr => cases h
  | app cnt data =>
    obtain ⟨phase, -⟩ | ⟨capacity, tooLong⟩ := (appFault_eq_some_iff _ _ _ _ _).mp h
    · exact .inl phase
    · exact .inr (.inl ⟨capacity, cnt, data, rfl, tooLong⟩)
  | sealBuf | len =>
    obtain ⟨-, phase⟩ := Option.ite_none_right_eq_some.mp h
    exact .inl (Option.some.inj phase).symm
  | getu o w | gets o w =>
    obtain ⟨phase, -⟩ | ⟨range, -⟩ | ⟨width, -⟩ := (intFault_eq_some_iff _ _ _ _ _).mp h
    · exact .inl phase
    · exact .inr (.inr (.inl ⟨range, o, w, by simp⟩))
    · exact .inr (.inr (.inr ⟨width, o, w, by simp⟩))
  | gett o w =>
    obtain ⟨phase, -⟩ | ⟨range, -⟩ := (textFault_eq_some_iff _ _ _ _ _).mp h
    · exact .inl phase
    · exact .inr (.inr (.inl ⟨range, o, w, by simp⟩))

/-- Settles O51: by the codes of each command's checks; an `APP` that does not fit reports it. -/
theorem codesByCommand : Obligations.CodesByCommand := by
  intro i s t h
  have raisedBy {e : Code} (error : e ≠ .ok) (code : t.code = e) :=
    commandFault_eq_some_cases ((exec_code_eq_iff error h).mp code)
  refine ⟨fun range => ?range, fun illegal => ?illegal, fun width => ?width, fun capacity => ?capacity, ?tooLong⟩
  case range => simpa using raisedBy (by decide) range
  case illegal => simpa using raisedBy (by decide) illegal
  case width => simpa using raisedBy (by decide) width
  case capacity => simpa using raisedBy (by decide) capacity
  case tooLong =>
    rintro ⟨cnt, data, rfl, loading, tooLong⟩
    injection h.symm.trans (exec_app_of_too_long loading tooLong data) with raised
    exact raised ▸ rfl

/-- Settles O52: each clause is the first of the checks that fails. -/
theorem faultPriority : Obligations.FaultPriority := by
  refine ⟨fun s offset width loading => ?phase, fun s offset width isSealed _ pastEnd => ?range,
    fun s cw illegal => deliver_of_illegal illegal s⟩
  case phase =>
    have notSealed : s.ph ≠ .sealed := by simp [loading]
    have int := intFault_of_not_sealed notSealed s.n offset.toNat width.toNat
    exact ⟨exec_of_commandFault int, exec_of_commandFault int,
      exec_gett_of_fault (textFault_of_not_sealed notSealed _ _ _)⟩
  case range =>
    exact ⟨exec_extraction_of_outOfRange isSealed (.inr pastEnd) (.inl rfl),
      exec_extraction_of_outOfRange isSealed (.inr pastEnd) (.inr (.inl rfl))⟩

/-! ## The two ways a word ends (R220, R222, R232) -/

theorem deliver_answers (cw : Word) (s : State) : ∃ t, deliver cw s = .next t := by
  cases dec : decode cw with
  | command i => exact deliver_of_command dec s ▸ exec_answers i s
  | illegal why => exact ⟨_, deliver_of_illegal ⟨why, dec⟩ s⟩

section
variable {s t : State} {i : Instr}

theorem EndsNormally.code_eq (h : EndsNormally s i t) : t.code = .ok := by
  cases h <;> rfl

theorem EndsNormally.got_eq (h : EndsNormally s i t) : t.got = s.got := by
  cases h <;> rfl

theorem EndsNormally.draws_eq (h : EndsNormally s i t) : t.draws = s.draws := by
  cases h <;> rfl

end

/-- Settles O49: every word answers, and a word that does not end normally ends in a fault. -/
theorem everyWordEndsInOneOfTwoWays : Obligations.EveryWordEndsInOneOfTwoWays := by
  intro cw s
  obtain ⟨t, answer⟩ := deliver_answers cw s
  refine ⟨t, answer, ?_⟩
  obtain ⟨e, -, rfl⟩ | ⟨i, -, normal⟩ := deliver_cases answer
  · exact ⟨.inr rfl, rfl, rfl, rfl, rfl⟩
  · exact ⟨.inl normal.code_eq, normal.cfg_eq, normal.todo_eq, normal.got_eq, normal.draws_eq⟩

/-- R232: no word, legal or not, reads what a fault wrote. -/
theorem deliver_raise (cw : Word) (s : State) (e : Code) : deliver cw (s.raise e) = deliver cw s := by
  cases dec : decode cw with
  | command i =>
    rw [deliver_of_command dec, deliver_of_command dec]
    exact exec_congr_code_result i s e .none
  | illegal why =>
    rw [deliver_of_illegal ⟨why, dec⟩, deliver_of_illegal ⟨why, dec⟩]
    rfl

/-- Settles O53: a word that does not end with `CODE = 0` has raised a fault, which no word reads. -/
theorem faultsLeaveNoTrace : Obligations.FaultsLeaveNoTrace := by
  intro cw dw s t answer fault
  obtain ⟨e, -, rfl⟩ | ⟨i, -, normal⟩ := deliver_cases answer
  · exact deliver_raise dw s e
  · exact absurd normal.code_eq fault

end Sys2Proof.Machine
end

section
/-! PROOFS of the statements of 70_reset_and_hazards.md: the reset event (R250), and the host's look before it reads a
port (R259). -/

namespace Sys2Proof.Machine

/-! ## The reset event (R250, R38) -/

/-- R30 to R32: with `R = NONE` only `STATUS` holds a value. -/
theorem portValue_of_result_none {s : State} {p : Port} (h : s.result = .none) (notStatus : p ≠ .status) :
    portValue p s = none := by
  cases p with
  | status => exact absurd rfl notStatus
  | res => exact portValue_res_of_not_int (by simp [h])
  | tlen => exact portValue_tlen_of_not_text (by simp [h])
  | txt i => exact portValue_txt_of_no_char (by simp [h])

/-- Settles O8: the reset event and a `CLR` that ends normally write the same table, and it is a fresh state. -/
theorem resetEventGivesTheResetTable : Obligations.ResetEventGivesTheResetTable := by
  intro s rest htodo t
  have fresh : Fresh t := ⟨rfl, rfl, rfl, rfl⟩
  have noValue {p : Port} : p ≠ .status → portValue p t = none := portValue_of_result_none rfl
  exact ⟨step_reset htodo, EndsNormally.clr.exec_eq, fresh, rfl, rfl, congrArg some (statusWord_of_fresh fresh),
    noValue nofun, noValue nofun, fun _ => noValue nofun⟩

/-! ## Which ports hold a value (R30 to R32) -/

theorem kindBits_eq_one_iff (r : Result) : kindBits r = 1 ↔ ∃ v, r = .int v := by
  cases r <;> simp [kindBits]

theorem kindBits_eq_two_iff (r : Result) : kindBits r = 2 ↔ ∃ t, r = .text t := by
  cases r <;> simp [kindBits]

section
variable (s : State)

theorem isSome_portValue_res_iff : (portValue .res s).isSome = true ↔ ∃ v, s.result = .int v := by
  cases hr : s.result <;> simp [portValue, hr]

theorem isSome_portValue_tlen_iff : (portValue .tlen s).isSome = true ↔ ∃ t, s.result = .text t := by
  cases hr : s.result <;> simp [portValue, hr]

theorem isSome_portValue_txt_iff (i : Nat) :
    (portValue (.txt i) s).isSome = true ↔ ∃ t, s.result = .text t ∧ i < t.length := by
  cases hr : s.result <;> simp [portValue, hr]

/-! ## The host's look (R259) -/

theorem portUsable_res_iff : portUsable .res s = true ↔ s.code = .ok ∧ ∃ v, s.result = .int v := by
  rw [portUsable, Bool.and_eq_true, decide_eq_true_iff, decide_eq_true_iff, kindBits_eq_one_iff]

theorem portUsable_tlen_iff : portUsable .tlen s = true ↔ s.code = .ok ∧ ∃ t, s.result = .text t := by
  rw [portUsable, Bool.and_eq_true, decide_eq_true_iff, decide_eq_true_iff, kindBits_eq_two_iff]

end

section
variable {s : State}

/-- R40 item 3: where there is a result, the last command ended normally. -/
theorem Inv.code_ok (h : Inv s) (answered : s.result ≠ .none) : s.code = .ok := (h.resultSealed answered).1

/-- R31, R40 item 4: a text result is so short that `TLEN` is its length. -/
theorem Inv.toNat_textLength (h : Inv s) {t : List Byte} (hr : s.result = .text t) :
    (BitVec.ofNat 32 t.length).toNat = t.length := by
  have fits : t.length ≤ s.cfg.tmax := (h.textWf t hr).1
  have small : s.cfg.tmax ≤ 682 := min_le_left _ _
  rw [BitVec.toNat_ofNat]
  exact Nat.mod_eq_of_lt (by omega)

theorem portUsable_txt_iff (h : Inv s) (i : Nat) :
    portUsable (.txt i) s = true ↔ s.code = .ok ∧ ∃ t, s.result = .text t ∧ i < t.length := by
  cases hr : s.result with
  | none | int => simp [portUsable, kindBits, hr]
  | text t => simp [portUsable, kindBits, hr, portValue_tlen_of_text hr, h.toNat_textLength hr, -BitVec.toNat_ofNat]

end

/-- Settles O46: port by port, the look asks for `CODE = 0` and for the result the port shows; by the invariants a
result implies `CODE = 0`. -/
theorem lookBeforeReadIsExact : Obligations.LookBeforeReadIsExact := by
  intro s p inv
  cases p with
  | status => exact iff_of_true rfl rfl
  | res =>
    rw [portUsable_res_iff, isSome_portValue_res_iff]
    exact and_iff_right_of_imp fun ⟨v, hr⟩ => inv.code_ok (by simp [hr])
  | tlen =>
    rw [portUsable_tlen_iff, isSome_portValue_tlen_iff]
    exact and_iff_right_of_imp fun ⟨t, hr⟩ => inv.code_ok (by simp [hr])
  | txt i =>
    rw [portUsable_txt_iff inv, isSome_portValue_txt_iff]
    exact and_iff_right_of_imp fun ⟨t, hr, _⟩ => inv.code_ok (by simp [hr])

end Sys2Proof.Machine
end
